-- ==== Sys2Proof/Config.lean ====
section
/-! DEFINITION. What is fixed for every Intcode core (spec/00_scope.md rule R8).
The run parameters MEM_LEN, STEP_LIMIT, IN_SEQ and IMAGE are set by the host (rule R224) and so stand in State.
No step draws a free value (rule R110), so this file holds no opaque constant. -/

namespace Sys2Proof.Config

/-- `CELL_MIN` (R8). -/
def cellMin : Int := -2 ^ 63

/-- `CELL_MAX` (R8). -/
def cellMax : Int := 2 ^ 63 - 1

/-- The bound on `MEM_LEN` (R8, D21): a longer image is refused. -/
def memLenMax : Nat := 2 ^ 62

end Sys2Proof.Config
end

