-- ==== Sys2Proof/Word.lean ====
section
/-! DEFINITION. The cell value: a signed integer of `CELL_WIDTH` = 64 bits (spec/00_scope.md rules R8, R9, R12).
Every value is read as the integer `toInt`, which lies in [CELL_MIN, CELL_MAX] by the type (log entry 1). -/

namespace Sys2Proof

/-- One cell value (R9). Read it with `BitVec.toInt`. -/
abbrev Word := BitVec 64

/-- The cell value that stands for an integer of [CELL_MIN, CELL_MAX]. -/
abbrev Word.ofInt (v : Int) : Word := BitVec.ofInt 64 v

end Sys2Proof
end

