-- ==== Sys2Proof/Syntax.lean ====
section
/-! DEFINITION. The instructions as data: the nine rows of spec/opcode_table.json, with their parameters
(spec/30_encoding.md rules R70 to R75). -/

namespace Sys2Proof

/-- The two parameter modes (R72). -/
inductive Mode where
  | positional
  | immediate
deriving DecidableEq, Repr

/-- An operand parameter (role "O" of R75): its raw cell, read by its mode (R78). -/
inductive Operand where
  /-- The operand is the cell this address names. -/
  | positional (addr : Word)
  /-- The operand is this value. -/
  | immediate (value : Word)
deriving DecidableEq, Repr

/-- A destination parameter (role "D" of R75). The address written is the raw cell whatever the mode digit is (R73, R79).
The digit is kept so that the instruction word is known exactly (`FAULT.word`, R27). -/
structure Dest where
  mode : Mode
  addr : Word
deriving DecidableEq, Repr

/-- The nine instructions, one constructor per row of the opcode map (R75). -/
inductive Instr where
  /-- ADD, opcode 1 (R131). -/
  | add (a b : Operand) (d : Dest)
  /-- MUL, opcode 2 (R132). -/
  | mul (a b : Operand) (d : Dest)
  /-- IN, opcode 3 (R141). -/
  | inp (d : Dest)
  /-- OUT, opcode 4 (R142). -/
  | out (a : Operand)
  /-- JT, opcode 5 (R151). -/
  | jt (c t : Operand)
  /-- JF, opcode 6 (R152). -/
  | jf (c t : Operand)
  /-- LT, opcode 7 (R160). -/
  | lt (a b : Operand) (d : Dest)
  /-- EQ, opcode 8 (R161). -/
  | eq (a b : Operand) (d : Dest)
  /-- HLT, opcode 99 (R170). -/
  | hlt
deriving DecidableEq, Repr

/-- The nine opcodes (R2). -/
inductive Opcode where
  | add | mul | inp | out | jt | jf | lt | eq | hlt
deriving DecidableEq, Repr

/-- What the decoder has after the word, before the parameters (R103, R104): the opcode and the three modes. -/
structure Head where
  op : Opcode
  m1 : Mode
  m2 : Mode
  m3 : Mode
deriving DecidableEq, Repr

/-- The decimal fields of a non-negative instruction word (R71), as numbers before any check. -/
structure Fields where
  op : Nat
  m1 : Nat
  m2 : Nat
  m3 : Nat
  hi : Nat
deriving DecidableEq, Repr

end Sys2Proof
end

