-- ==== Sys2Proof/WellFormed.lean ====
section
/-! DEFINITION. Legality of an instruction word, as spec/30_encoding.md rule R74 states it: five conditions, each a check
of its own. The decoder (Decode.lean) is written from 40_decode.md instead; that the two agree is a statement.
An `Instr` is legal by its type; `Instr.wf` says so in the terms of R74. -/

namespace Sys2Proof

/-- The field table of R71, for a non-negative word. -/
def fieldsOf (w : Nat) : Fields where
  op := w % 100
  m1 := w / 100 % 10
  m2 := w / 1000 % 10
  m3 := w / 10000 % 10
  hi := w / 100000

/-- The parameter count `n` of an opcode number (R75). -/
def paramCount (op : Nat) : Nat :=
  if op ∈ [1, 2, 7, 8] then 3 else if op ∈ [5, 6] then 2 else if op ∈ [3, 4] then 1 else 0

/-- Condition 1 of R74: the word is not negative. -/
def wordNonNegative (w : Word) : Bool := decide (0 ≤ w.toInt)

namespace Fields

/-- Condition 2 of R74: the opcode is one of the nine. -/
def opcodeListed (f : Fields) : Bool := decide (f.op ∈ [1, 2, 3, 4, 5, 6, 7, 8, 99])

/-- Condition 3 of R74: each parameter the opcode has carries mode digit 0 or 1. -/
def usedModesLegal (f : Fields) : Bool :=
  decide (1 ≤ paramCount f.op → f.m1 ≤ 1) && decide (2 ≤ paramCount f.op → f.m2 ≤ 1) &&
    decide (3 ≤ paramCount f.op → f.m3 ≤ 1)

/-- Condition 4 of R74: each position the opcode lacks carries digit 0. -/
def unusedModesZero (f : Fields) : Bool :=
  decide (paramCount f.op < 1 → f.m1 = 0) && decide (paramCount f.op < 2 → f.m2 = 0) &&
    decide (paramCount f.op < 3 → f.m3 = 0)

/-- Condition 5 of R74: no digit above the fifth. -/
def highDigitsZero (f : Fields) : Bool := decide (f.hi = 0)

/-- Conditions 2 to 5 of R74. -/
def wf (f : Fields) : Bool :=
  f.opcodeListed && f.usedModesLegal && f.unusedModesZero && f.highDigitsZero

end Fields

/-- `w` spells an instruction (R74). -/
def wordLegal (w : Word) : Bool := wordNonNegative w && (fieldsOf w.toNat).wf

/-- The digit of a mode (R72). -/
def Mode.fieldDigit : Mode → Nat
  | .positional => 0
  | .immediate => 1

/-- The mode digit an operand was read with. -/
def Operand.fieldDigit : Operand → Nat
  | .positional _ => 0
  | .immediate _ => 1

/-- The decimal fields an instruction has by R71 and R75. -/
def Instr.fields : Instr → Fields
  | .add a b d => ⟨1, a.fieldDigit, b.fieldDigit, d.mode.fieldDigit, 0⟩
  | .mul a b d => ⟨2, a.fieldDigit, b.fieldDigit, d.mode.fieldDigit, 0⟩
  | .inp d => ⟨3, d.mode.fieldDigit, 0, 0, 0⟩
  | .out a => ⟨4, a.fieldDigit, 0, 0, 0⟩
  | .jt c t => ⟨5, c.fieldDigit, t.fieldDigit, 0, 0⟩
  | .jf c t => ⟨6, c.fieldDigit, t.fieldDigit, 0, 0⟩
  | .lt a b d => ⟨7, a.fieldDigit, b.fieldDigit, d.mode.fieldDigit, 0⟩
  | .eq a b d => ⟨8, a.fieldDigit, b.fieldDigit, d.mode.fieldDigit, 0⟩
  | .hlt => ⟨99, 0, 0, 0, 0⟩

/-- An instruction's fields pass every check of R74. -/
def Instr.wf (i : Instr) : Bool := i.fields.wf

end Sys2Proof
end

