-- ==== Sys2Proof/Decode.lean ====
section
/-! DEFINITION. The instruction decoder (spec/40_decode.md rules R103 to R105) and, after it, the encoder
(spec/30_encoding.md rules R71, R85). Both are total; an illegal word is rejected by name. -/

namespace Sys2Proof

/-- Why a sequence of cells spells no instruction. -/
inductive DecodeError where
  /-- R103: a negative word or an opcode outside the nine, with the value `FAULT.opcode` records (R27). -/
  | invalidOpcode (opcode : Int)
  /-- R104: the opcode is legal and condition 3, 4 or 5 of R74 fails. -/
  | invalidMode
  /-- There is no word (an empty sequence of cells). -/
  | noWord
  /-- The sequence ends before the last parameter. -/
  | missingParameter
deriving DecidableEq, Repr

/-- `digit(w, k)` (R10). -/
def digit (w k : Nat) : Nat := w / 10 ^ k % 10

/-- The opcode number of R75. -/
def Opcode.code : Opcode → Nat
  | .add => 1
  | .mul => 2
  | .inp => 3
  | .out => 4
  | .jt => 5
  | .jf => 6
  | .lt => 7
  | .eq => 8
  | .hlt => 99

/-- `n(op)` of R75. -/
def Opcode.params : Opcode → Nat
  | .add | .mul | .lt | .eq => 3
  | .jt | .jf => 2
  | .inp | .out => 1
  | .hlt => 0

/-- `len(op)` of R75: the length in cells (R70, R76). -/
def Opcode.length (op : Opcode) : Nat := op.params + 1

/-- The opcode map in the source's dispatch order (R75). -/
def opcodeMap : List Opcode := [.add, .mul, .inp, .out, .jt, .jf, .lt, .eq, .hlt]

/-- The row of the opcode map with this number, if there is one (R103). -/
def opcodeOf (n : Nat) : Option Opcode := opcodeMap.find? (fun op => op.code == n)

/-- The mode digit `m` of position `k` (counted from 1) of an opcode with `n` parameters, checked by conditions 3 and 4
of R74. A position the opcode lacks must hold 0. -/
def modeDigit (n k m : Nat) : Option Mode :=
  if m = 0 then some .positional else if m = 1 ∧ k ≤ n then some .immediate else none

/-- Word decode (R103, R104). -/
def decodeHead (w : Word) : Except DecodeError Head :=
  if w.toInt < 0 then .error (.invalidOpcode w.toInt)
  else
    match opcodeOf (w.toNat % 100) with
    | none => .error (.invalidOpcode (digit w.toNat 1 * 10 + digit w.toNat 0 : Nat))
    | some op =>
      if 100000 ≤ w.toNat then .error .invalidMode
      else
        match modeDigit op.params 1 (digit w.toNat 2), modeDigit op.params 2 (digit w.toNat 3),
          modeDigit op.params 3 (digit w.toNat 4) with
        | some m1, some m2, some m3 => .ok ⟨op, m1, m2, m3⟩
        | _, _, _ => .error .invalidMode

/-- An operand parameter from its mode and raw cell (R78). -/
def Operand.ofParam (m : Mode) (p : Word) : Operand :=
  match m with
  | .positional => .positional p
  | .immediate => .immediate p

/-- `p[k]` of the fetched parameter cells, counted from 1 (R11). -/
def param (ps : List Word) (k : Nat) : Word := ps.getD (k - 1) 0

/-- The instruction of a decoded word and its `n` parameter cells, roles by R75. -/
def Head.assemble (h : Head) (ps : List Word) : Instr :=
  match h.op with
  | .add => .add (.ofParam h.m1 (param ps 1)) (.ofParam h.m2 (param ps 2)) ⟨h.m3, param ps 3⟩
  | .mul => .mul (.ofParam h.m1 (param ps 1)) (.ofParam h.m2 (param ps 2)) ⟨h.m3, param ps 3⟩
  | .inp => .inp ⟨h.m1, param ps 1⟩
  | .out => .out (.ofParam h.m1 (param ps 1))
  | .jt => .jt (.ofParam h.m1 (param ps 1)) (.ofParam h.m2 (param ps 2))
  | .jf => .jf (.ofParam h.m1 (param ps 1)) (.ofParam h.m2 (param ps 2))
  | .lt => .lt (.ofParam h.m1 (param ps 1)) (.ofParam h.m2 (param ps 2)) ⟨h.m3, param ps 3⟩
  | .eq => .eq (.ofParam h.m1 (param ps 1)) (.ofParam h.m2 (param ps 2)) ⟨h.m3, param ps 3⟩
  | .hlt => .hlt

/-- The decoder over a sequence of cells: the first instruction and the cells after it, which it does not look at
(R111). -/
def decode : List Word → Except DecodeError (Instr × List Word)
  | [] => .error .noWord
  | w :: rest =>
    match decodeHead w with
    | .error e => .error e
    | .ok h =>
      if rest.length < h.op.params then .error .missingParameter
      else .ok (h.assemble (rest.take h.op.params), rest.drop h.op.params)

/-- The digit of a mode (R72). -/
def Mode.digit : Mode → Nat
  | .positional => 0
  | .immediate => 1

/-- The mode of an operand (R72). -/
def Operand.mode : Operand → Mode
  | .positional _ => .positional
  | .immediate _ => .immediate

/-- The raw cell of an operand (R78). -/
def Operand.raw : Operand → Word
  | .positional p => p
  | .immediate p => p

/-- The opcode and modes an instruction is written with; a position the opcode lacks is 0. -/
def Instr.head : Instr → Head
  | .add a b d => ⟨.add, a.mode, b.mode, d.mode⟩
  | .mul a b d => ⟨.mul, a.mode, b.mode, d.mode⟩
  | .inp d => ⟨.inp, d.mode, .positional, .positional⟩
  | .out a => ⟨.out, a.mode, .positional, .positional⟩
  | .jt c t => ⟨.jt, c.mode, t.mode, .positional⟩
  | .jf c t => ⟨.jf, c.mode, t.mode, .positional⟩
  | .lt a b d => ⟨.lt, a.mode, b.mode, d.mode⟩
  | .eq a b d => ⟨.eq, a.mode, b.mode, d.mode⟩
  | .hlt => ⟨.hlt, .positional, .positional, .positional⟩

/-- The parameter cells in operand order (R70, R85). -/
def Instr.paramCells : Instr → List Word
  | .add a b d => [a.raw, b.raw, d.addr]
  | .mul a b d => [a.raw, b.raw, d.addr]
  | .inp d => [d.addr]
  | .out a => [a.raw]
  | .jt c t => [c.raw, t.raw]
  | .jf c t => [c.raw, t.raw]
  | .lt a b d => [a.raw, b.raw, d.addr]
  | .eq a b d => [a.raw, b.raw, d.addr]
  | .hlt => []

/-- `op + 100*m1 + 1000*m2 + 10000*m3` (R85). -/
def Head.number (h : Head) : Nat :=
  h.op.code + 100 * h.m1.digit + 1000 * h.m2.digit + 10000 * h.m3.digit

/-- The instruction word (R71, R85). -/
def Instr.word (i : Instr) : Word := BitVec.ofNat 64 i.head.number

/-- The cells of an instruction: the word, then the parameters (R70). -/
def encode (i : Instr) : List Word := i.word :: i.paramCells

/-- The cells of a number read as `k` words of 64 bits, the first word in the lowest bits (log entry 15). -/
def cellsOfNumber : Nat → Nat → List Word
  | 0, _ => []
  | k + 1, w => BitVec.ofNat 64 w :: cellsOfNumber k (w >>> 64)

/-- The longest instruction, in cells (R75). -/
def longestInstr : Nat := 4

/-- The instruction read from `nbits` bits `w`, every bit above them 0 (the host's question about a table row). -/
def decodeTableWord (nbits w : Nat) : Option Instr :=
  match decode (cellsOfNumber longestInstr (w % 2 ^ nbits)) with
  | .ok (i, _) => some i
  | .error _ => none

end Sys2Proof
end

