-- ==== Sys2Proof/Machine/State.lean ====
section
/-! DEFINITION. The architectural state (spec/10_state.md), the fault record, the outcomes of a step and the state after
reset. Plain data throughout. -/

namespace Sys2Proof.Machine

/-- `RUN` (R26). -/
inductive RunState where
  | running
  | halted
  | faulted
deriving DecidableEq, Repr

/-- The seven kinds of fault (R180). -/
inductive FaultKind where
  | outOfBounds
  | invalidOpcode
  | malformedProgram
  | stepLimitExceeded
  | invalidMode
  | inputExhausted
  | overflow
deriving DecidableEq, Repr

/-- The fault record `FAULT` (R27). -/
structure FaultRecord where
  kind : FaultKind
  ip : Word
  addr : Option Word
  word : Option Word
  opcode : Option Int
deriving DecidableEq, Repr

/-- Program Memory (R22): `len` is `MEM_LEN`; `cells` lists the cells that do not hold 0, by rising address.
A cell of `[0, len)` that is not listed holds 0 (log entry 2). -/
structure Memory where
  cells : List (Nat × Word)
  len : Nat
deriving DecidableEq, Repr

/-- The state of the block (R37), with the run parameters the host sets (R36). -/
structure State where
  /-- `MEM` and `MEM_LEN` (R22, R23). -/
  mem : Memory
  /-- `IP` (R24). -/
  ip : Word
  /-- `RUN` (R26). -/
  run : RunState
  /-- `FAULT`, `none` while no fault is recorded (R27). -/
  fault : Option FaultRecord
  /-- `DIAG` (R28). -/
  diag : Option Word
  /-- `IN_SEQ` (R29). -/
  inSeq : List Word
  /-- `IN_PTR` (R29). -/
  inPtr : Nat
  /-- `OUT_SEQ`, oldest first (R30). -/
  outSeq : List Word
  /-- `STEPS` (R31). -/
  steps : Nat
  /-- `STEP_LIMIT` (R8, R101). -/
  stepLimit : Option Nat
deriving DecidableEq, Repr

/-- Why there is no next state. The block's own faults (R180) are not here: their entry is described, so they are next
states with `RUN = Faulted` (R181). -/
inductive Fault where
  /-- Raised by `step` when `RUN = Halted`: there is no step (R100). Safe: the model stops where the block has stopped. -/
  | noStepHalted
  /-- Raised by `step` when `RUN = Faulted`: there is no step (R100). Safe: the model stops where the block has stopped. -/
  | noStepFaulted
deriving DecidableEq, Repr

/-- Refusals. -/
inductive Refusal where
  /-- Raised by an arm of `exec` that has no meaning yet, by the instruction's mnemonic. No arm raises it in this model.
  Safe: it stops. -/
  | notModelled (mnemonic : String)
deriving DecidableEq, Repr

/-- `F(info)` of `raise F(info)` (R11, R181): what a faulting step records besides `ip` and the word. -/
structure Trap where
  kind : FaultKind
  addr : Option Word
  opcode : Option Int
deriving DecidableEq, Repr

/-- The inputs of the jump multiplexer (R150). -/
inductive IpSelect where
  /-- `IP + len(op)`. -/
  | sequential (len : Nat)
  /-- The target operand itself, absolute. -/
  | target (t : Word)
  /-- The unchanged `IP` (HLT). -/
  | hold
deriving DecidableEq, Repr

/-- What an instruction rule asks the step to commit (R107, R108). -/
structure Effects where
  /-- The memory write, if any: address and value. -/
  write : Option (Word × Word)
  /-- The next `IP`. -/
  next : IpSelect
  /-- `RUN <- Halted` (HLT only). -/
  halt : Bool
  /-- `IN_PTR <- IN_PTR + 1` (IN only). -/
  consume : Bool
  /-- The value output (OUT only): it goes to `DIAG` and `OUT_SEQ`. -/
  output : Option Word
deriving DecidableEq, Repr

/-- What the host sets before a reset and the reset leaves alone (R220, R222). -/
structure Setup where
  mem : Memory
  inSeq : List Word
  stepLimit : Option Nat
deriving DecidableEq, Repr

/-- The state right after reset (R37, R220) when the host has loaded no image, supplied no input and set no limit
(log entry 3). -/
def State.reset : State where
  mem := { cells := [], len := 0 }
  ip := 0
  run := .running
  fault := none
  diag := none
  inSeq := []
  inPtr := 0
  outSeq := []
  steps := 0
  stepLimit := none

end Sys2Proof.Machine
end

