-- ==== Sys2Proof/Machine/Ops.lean ====
section
/-! DEFINITION. The shared operations: Program Memory (spec/20_memory.md), taking a fault (60_exceptions.md rule R181), the
jump multiplexer (43_jump.md rule R150), the commit (40_decode.md rule R108) and the fetch (R54, R102 to R105). -/

namespace Sys2Proof.Machine

/-! ## Program Memory -/

/-- The content of cell `a`: 0 where it is not listed. -/
def readCell : List (Nat × Word) → Nat → Word
  | [], _ => 0
  | (b, v) :: rest, a => if a = b then v else readCell rest a

/-- The list without cell `a`. -/
def eraseCell (cells : List (Nat × Word)) (a : Nat) : List (Nat × Word) :=
  cells.filter (fun c => c.1 != a)

/-- The list with cell `a` entered before the first higher address. -/
def insertCell : List (Nat × Word) → Nat → Word → List (Nat × Word)
  | [], a, v => [(a, v)]
  | (b, w) :: rest, a, v => if a < b then (a, v) :: (b, w) :: rest else (b, w) :: insertCell rest a v

/-- `MEM[a]` (R11, R22). -/
def Memory.read (m : Memory) (a : Nat) : Word := readCell m.cells a

/-- `MEM[a] <- v` (R11, R22); the canonical form is kept. -/
def Memory.write (m : Memory) (a : Nat) (v : Word) : Memory where
  cells := if v = 0 then eraseCell m.cells a else insertCell (eraseCell m.cells a) a v
  len := m.len

/-- The canonical form: addresses strictly rising, no cell that holds 0 listed, every address inside `[0, MEM_LEN)`. -/
abbrev Memory.wf (m : Memory) : Prop :=
  m.cells.Pairwise (fun c d => c.1 < d.1) ∧ ∀ c ∈ m.cells, c.2 ≠ 0 ∧ c.1 < m.len

/-- `a ∈ [0, MEM_LEN)` (R51). -/
def Memory.inBounds (m : Memory) (a : Word) : Bool := decide (0 ≤ a.toInt ∧ a.toInt < m.len)

/-- OutOfBounds with the offending address (R182). -/
def trapOutOfBounds (a : Word) : Trap := ⟨.outOfBounds, some a, none⟩

/-- MalformedProgram with the fetch address (R184). -/
def trapMalformed (a : Word) : Trap := ⟨.malformedProgram, some a, none⟩

/-- A fault that records neither an address nor an opcode (R185 to R188). -/
def trapPlain (k : FaultKind) : Trap := ⟨k, none, none⟩

/-- `MemRead(a, 1)` (R52). -/
def memRead (m : Memory) (a : Word) : Except Trap Word :=
  if m.inBounds a then .ok (m.read a.toNat) else .error (trapOutOfBounds a)

/-- The bounds check of a destination (R53; the order of R189 puts it before the data conditions). -/
def checkDest (m : Memory) (a : Word) : Except Trap Unit :=
  if m.inBounds a then .ok () else .error (trapOutOfBounds a)

/-- `MemWrite(a, 1, v)` (R53). -/
def memWrite (m : Memory) (a v : Word) : Except Trap Memory :=
  match checkDest m a with
  | .error t => .error t
  | .ok _ => .ok (m.write a.toNat v)

/-- `Fetch(a)` (R54). -/
def fetch (m : Memory) (a : Word) : Except Trap Word :=
  if a.toInt < 0 then .error (trapOutOfBounds a)
  else if (m.len : Int) ≤ a.toInt then .error (trapMalformed a)
  else .ok (m.read a.toNat)

/-- The cells of an image that do not hold 0, from address `a` on. -/
def imageCells : Nat → List Word → List (Nat × Word)
  | _, [] => []
  | a, v :: rest => if v = 0 then imageCells (a + 1) rest else (a, v) :: imageCells (a + 1) rest

/-- `MEM <- image`, `MEM_LEN <- length(image)` (R224 `load`). -/
def Memory.ofImage (image : List Word) : Memory where
  cells := imageCells 0 image
  len := image.length

/-- The cells of Program Memory in order, `MEM_LEN` of them. -/
def Memory.toImage (m : Memory) : List Word := (List.range m.len).map m.read

/-! ## Taking a fault -/

/-- `FAULT.kind` as a number (R33, R180). -/
def FaultKind.code : FaultKind → Nat
  | .outOfBounds => 1
  | .invalidOpcode => 2
  | .malformedProgram => 3
  | .stepLimitExceeded => 4
  | .invalidMode => 5
  | .inputExhausted => 6
  | .overflow => 7

/-- `RUN` as a number (R33). -/
def RunState.code : RunState → Nat
  | .running => 0
  | .halted => 1
  | .faulted => 2

/-- Fault entry (R181): `RUN` and `FAULT` change, nothing else. `word` is the instruction word if it was fetched. There is
no return from a fault but a reset (R190). -/
def State.raise (s : State) (t : Trap) (word : Option Word) : State :=
  { s with
    run := .faulted
    fault := some { kind := t.kind, ip := s.ip, addr := t.addr, word := word, opcode := t.opcode } }

/-! ## Commit -/

/-- The jump multiplexer (R150). -/
def jumpMux (ip : Word) : IpSelect → Word
  | .sequential len => ip + BitVec.ofNat 64 len
  | .target t => t
  | .hold => ip

/-- The commit of a step that raises no fault: all its effects at once (R108). -/
def State.commit (s : State) (e : Effects) : State :=
  { s with
    mem := match e.write with
      | none => s.mem
      | some (a, v) => s.mem.write a.toNat v
    ip := jumpMux s.ip e.next
    run := if e.halt then .halted else s.run
    diag := match e.output with
      | none => s.diag
      | some v => some v
    inPtr := if e.consume then s.inPtr + 1 else s.inPtr
    outSeq := match e.output with
      | none => s.outSeq
      | some v => s.outSeq ++ [v]
    steps := s.steps + 1 }

/-- How an instruction rule ends (R108, R181): commit its effects, or take the fault it raised. `w` is its word. -/
def finish (s : State) (w : Word) (r : Except Trap Effects) : Host.Outcome State Fault Refusal :=
  match r with
  | .ok e => .next (s.commit e)
  | .error t => .next (s.raise t (some w))

/-- Effects that only select the next `IP`. -/
def Effects.moveTo (n : IpSelect) : Effects where
  write := none
  next := n
  halt := false
  consume := false
  output := none

/-- Effects that store one cell and advance by `len`. -/
def Effects.store (d : Dest) (v : Word) (len : Nat) : Effects where
  write := some (d.addr, v)
  next := .sequential len
  halt := false
  consume := false
  output := none

/-! ## Fetch -/

/-- The step-limit check (R101). -/
def State.limitReached (s : State) : Bool :=
  match s.stepLimit with
  | none => false
  | some l => decide (l ≤ s.steps)

/-- The parameter fetches from address `a` on, in increasing order (R105). -/
def fetchParams (m : Memory) : Word → Nat → Except Trap (List Word)
  | _, 0 => .ok []
  | a, n + 1 =>
    match fetch m a with
    | .error t => .error t
    | .ok p =>
      match fetchParams m (a + 1) n with
      | .error t => .error t
      | .ok ps => .ok (p :: ps)

/-- The fault a word raises that the decoder rejects (R183, R186). The last two cases do not arise for a word that was
fetched. -/
def trapOfDecode : DecodeError → Trap
  | .invalidOpcode op => ⟨.invalidOpcode, none, some op⟩
  | .invalidMode => trapPlain .invalidMode
  | .noWord => trapPlain .malformedProgram
  | .missingParameter => trapPlain .malformedProgram

/-- Word fetch, decode and parameter fetch (R102 to R105), in the order of R109. An error carries `FAULT.word`. -/
def fetchInstr (s : State) : Except (Trap × Option Word) Instr :=
  match fetch s.mem s.ip with
  | .error t => .error (t, none)
  | .ok w =>
    match decodeHead w with
    | .error e => .error (trapOfDecode e, some w)
    | .ok h =>
      match fetchParams s.mem (s.ip + 1) h.op.params with
      | .error t => .error (t, some w)
      | .ok ps => .ok (h.assemble ps)

/-- Cells stored one after another from address `a` on. -/
def Memory.place (m : Memory) : Nat → List Word → Memory
  | _, [] => m
  | a, v :: rest => (m.write a v).place (a + 1) rest

/-- The memory with `cells` placed from `a` on, made long enough to hold them (a load by the host, log entry 15). -/
def Memory.placeProgram (m : Memory) (a : Nat) (cells : List Word) : Memory where
  cells := (m.place a cells).cells
  len := max m.len (a + cells.length)

end Sys2Proof.Machine
end

