-- ==== Sys2Proof/Machine/Flags.lean ====
section
/-! DEFINITION. The block has no flags (spec/10_state.md rule R32). What other hardware keeps in flags is here a check or a
value: the overflow check of the ALU (41_arith.md rule R130), the comparison results (44_compare.md rules R160, R161) and
the zero test of the jumps (43_jump.md rules R151, R152). -/

namespace Sys2Proof.Machine

/-- The range check on an exact result (R130): the cell value, or Overflow (R188). -/
def narrow (r : Int) : Except Trap Word :=
  if Config.cellMin ≤ r ∧ r ≤ Config.cellMax then .ok (Word.ofInt r) else .error (trapPlain .overflow)

/-- The result of Less-than (R160): signed comparison (R12). -/
def lessThan (a b : Word) : Word := if a.toInt < b.toInt then 1 else 0

/-- The result of Equals (R161): identity of cell values (R12). -/
def equals (a b : Word) : Word := if a = b then 1 else 0

/-- The zero test of the conditional jumps (R151, R152). -/
def isZero (c : Word) : Bool := decide (c = 0)

end Sys2Proof.Machine
end

