-- ==== Sys2Proof/Machine/Operands.lean ====
section
/-! DEFINITION. Operand and destination assembly (spec/30_encoding.md rules R78, R79; 40_decode.md rule R106). -/

namespace Sys2Proof.Machine

/-- `operand(k)` (R78): the raw cell, or the cell it addresses. -/
def resolve (m : Memory) : Operand → Except Trap Word
  | .immediate p => .ok p
  | .positional p => memRead m p

/-- Two operands in increasing parameter order (R106): the first that faults is the one reported (R189). -/
def resolve2 (m : Memory) (a b : Operand) : Except Trap (Word × Word) :=
  match resolve m a with
  | .error t => .error t
  | .ok x =>
    match resolve m b with
    | .error t => .error t
    | .ok y => .ok (x, y)

/-- The address a destination names (R79): the raw cell, whatever the mode digit is (R73). -/
def destAddr (d : Dest) : Word := d.addr

end Sys2Proof.Machine
end

