-- ==== Sys2Proof/Machine/Arith.lean ====
section
/-! DEFINITION. The execution ALU (spec/41_arith.md): ADD and MUL, over the shape all four storing ALU instructions share. -/

namespace Sys2Proof.Machine

/-- Operands in order, destination check, result, one write, `IP + 4` (R131, R132, R160, R161; order of R189). -/
def aluRule (f : Word → Word → Except Trap Word) (a b : Operand) (d : Dest) (s : State) : Except Trap Effects :=
  match resolve2 s.mem a b with
  | .error t => .error t
  | .ok (x, y) =>
    match checkDest s.mem (destAddr d) with
    | .error t => .error t
    | .ok _ =>
      match f x y with
      | .error t => .error t
      | .ok v => .ok (.store d v 4)

/-- ADD (R131): the exact sum. -/
def execAdd (a b : Operand) (d : Dest) (s : State) : Host.Outcome State Fault Refusal :=
  finish s (Instr.add a b d).word (aluRule (fun x y => narrow (x.toInt + y.toInt)) a b d s)

/-- MUL (R132): the exact product. -/
def execMul (a b : Operand) (d : Dest) (s : State) : Host.Outcome State Fault Refusal :=
  finish s (Instr.mul a b d).word (aluRule (fun x y => narrow (x.toInt * y.toInt)) a b d s)

end Sys2Proof.Machine
end

