-- ==== Sys2Proof/Machine/Compare.lean ====
section
/-! DEFINITION. The comparisons (spec/44_compare.md): LT and EQ. They never overflow. -/

namespace Sys2Proof.Machine

/-- LT (R160). -/
def execLt (a b : Operand) (d : Dest) (s : State) : Host.Outcome State Fault Refusal :=
  finish s (Instr.lt a b d).word (aluRule (fun x y => .ok (lessThan x y)) a b d s)

/-- EQ (R161). -/
def execEq (a b : Operand) (d : Dest) (s : State) : Host.Outcome State Fault Refusal :=
  finish s (Instr.eq a b d).word (aluRule (fun x y => .ok (equals x y)) a b d s)

end Sys2Proof.Machine
end

