-- ==== Sys2Proof/Machine/Halt.lean ====
section
/-! DEFINITION. Halt (spec/45_halt.md): HLT. -/

namespace Sys2Proof.Machine

/-- HLT (R170): `RUN <- Halted`, `IP` unchanged, no parameter, no fault of its own. -/
def execHlt (s : State) : Host.Outcome State Fault Refusal :=
  finish s Instr.hlt.word (.ok { Effects.moveTo .hold with halt := true })

end Sys2Proof.Machine
end

