-- ==== Sys2Proof/Machine/Io.lean ====
section
/-! DEFINITION. The input/output buffer interface (spec/42_io.md): IN and OUT. -/

namespace Sys2Proof.Machine

/-- `IN_SEQ[IN_PTR]`, or InputExhausted when no value is left (R140, R187). -/
def nextInput (s : State) : Except Trap Word :=
  match s.inSeq[s.inPtr]? with
  | some v => .ok v
  | none => .error (trapPlain .inputExhausted)

/-- The rule of IN (R141): destination check, then the input check, then the write. -/
def inRule (d : Dest) (s : State) : Except Trap Effects :=
  match checkDest s.mem (destAddr d) with
  | .error t => .error t
  | .ok _ =>
    match nextInput s with
    | .error t => .error t
    | .ok v => .ok { Effects.store d v 2 with consume := true }

/-- The rule of OUT (R142). -/
def outRule (a : Operand) (s : State) : Except Trap Effects :=
  match resolve s.mem a with
  | .error t => .error t
  | .ok v => .ok { Effects.moveTo (.sequential 2) with output := some v }

/-- IN (R141). -/
def execIn (d : Dest) (s : State) : Host.Outcome State Fault Refusal :=
  finish s (Instr.inp d).word (inRule d s)

/-- OUT (R142). -/
def execOut (a : Operand) (s : State) : Host.Outcome State Fault Refusal :=
  finish s (Instr.out a).word (outRule a s)

end Sys2Proof.Machine
end

