-- ==== Sys2Proof/Machine/Jump.lean ====
section
/-! DEFINITION. The conditional jumps (spec/43_jump.md): JT and JF. -/

namespace Sys2Proof.Machine

/-- Both operands are resolved, taken or not (R106, D29); the target is absolute and is not checked (R150). -/
def jumpRule (taken : Word → Bool) (c t : Operand) (s : State) : Except Trap Effects :=
  match resolve2 s.mem c t with
  | .error e => .error e
  | .ok (x, y) => .ok (.moveTo (if taken x then .target y else .sequential 3))

/-- JT (R151): taken when the condition is not zero. -/
def execJt (c t : Operand) (s : State) : Host.Outcome State Fault Refusal :=
  finish s (Instr.jt c t).word (jumpRule (fun x => !isZero x) c t s)

/-- JF (R152): taken when the condition is zero. -/
def execJf (c t : Operand) (s : State) : Host.Outcome State Fault Refusal :=
  finish s (Instr.jf c t).word (jumpRule isZero c t s)

end Sys2Proof.Machine
end

