-- ==== Sys2Proof/Machine/Cycle.lean ====
section
/-! DEFINITION. The body of one step (spec/40_decode.md rule R109), which Machine/Step.lean calls. -/

namespace Sys2Proof.Machine

/-- The step while `RUN = Running`: limit check (R101), fetch and decode (R102 to R105), dispatch (R106 to R108).
A fault of the limit check, the fetch or the decoder is taken (R181). -/
def runningCycle (s : State) : Host.Outcome State Fault Refusal :=
  if s.limitReached then .next (s.raise (trapPlain .stepLimitExceeded) none)
  else
    match fetchInstr s with
    | .error (t, w) => .next (s.raise t w)
    | .ok i => exec i s

/-- The step of R109. In Halted and Faulted there is none (R100). -/
def cycle (s : State) : Host.Outcome State Fault Refusal :=
  match s.run with
  | .halted => .fault .noStepHalted
  | .faulted => .fault .noStepFaulted
  | .running => runningCycle s

/-- `s` with these cells loaded at `IP` and up (log entry 15). At a negative `IP` no cell can be fetched (R54), so nothing
is loaded. -/
def State.loadAtIp (s : State) (cells : List Word) : State :=
  if s.ip.toInt < 0 then s else { s with mem := s.mem.placeProgram s.ip.toNat cells }

end Sys2Proof.Machine
end

