-- ==== Sys2Proof/Machine/Step.lean ====
section
/-! DEFINITION. One step of the block, and the load the host's question about a table row stands for. -/

namespace Sys2Proof.Machine

/-- One step (R109). -/
def step (s : State) : Host.Outcome State Fault Refusal := cycle s

/-- `s` with an instruction loaded where the next step fetches: the cells of the number `w`. It stands for the host's
load (R222, log entry 15). -/
def State.withFetchWord (s : State) (nbits w : Nat) : State :=
  s.loadAtIp (cellsOfNumber longestInstr (w % 2 ^ nbits))

end Sys2Proof.Machine
end

