-- ==== Sys2Proof/Machine/Assembler.lean ====
section
/-! DEFINITION. The assembly notation of the spec (spec/30_encoding.md rules R83 to R85), from text to cells. The forms are
the spec's; where blanks, commas and letter case may stand is the model's choice (log entry 11). -/

namespace Sys2Proof.Machine

/-- The mnemonics of R83 and the pseudo-instructions of R84. -/
inductive Mnemonic where
  | add | mul | inp | out | jt | jf | lt | eq | hlt
  | mov | clr | jmp | nop
deriving DecidableEq, Repr

/-- `v` of R83: a decimal number, or a label, which stands for its address. -/
inductive AsmValue where
  | number (v : Int)
  | label (name : List Char)
deriving DecidableEq, Repr

/-- An operand as written: `#v` or `v` (R83). -/
structure AsmArg where
  immediate : Bool
  value : AsmValue
deriving DecidableEq, Repr

/-- One item of an assembly text (R83). -/
inductive AsmItem where
  | label (name : List Char)
  | word (v : AsmValue)
  | op (m : Mnemonic) (args : List AsmArg)
deriving DecidableEq, Repr

/-- An operand whose value is known: `#v` is Immediate, `v` is Positional (R83). -/
def asmOperand (arg : Bool × Word) : Operand := if arg.1 then .immediate arg.2 else .positional arg.2

/-- A destination assembles with mode digit 0 (R85). -/
def asmDest (d : Word) : Dest := ⟨.positional, d⟩

/-- A destination as written: `v`; "`#v` is refused for a destination" (R83). -/
def asmDestArg (arg : Bool × Word) : Option Dest := if arg.1 then none else some (asmDest arg.2)

/-- No operand. -/
def asmForm0 (i : Instr) : List (Bool × Word) → Option Instr
  | [] => some i
  | _ => none

/-- The form `a`: one operand. -/
def asmFormO (f : Operand → Instr) : List (Bool × Word) → Option Instr
  | [a] => some (f (asmOperand a))
  | _ => none

/-- The form `d`: one destination. -/
def asmFormD (f : Dest → Instr) : List (Bool × Word) → Option Instr
  | [d] => (asmDestArg d).map f
  | _ => none

/-- The form `a, t`: two operands. -/
def asmFormOO (f : Operand → Operand → Instr) : List (Bool × Word) → Option Instr
  | [a, t] => some (f (asmOperand a) (asmOperand t))
  | _ => none

/-- The form `a, d`: one operand and one destination. -/
def asmFormOD (f : Operand → Dest → Instr) : List (Bool × Word) → Option Instr
  | [a, d] => (asmDestArg d).map (f (asmOperand a))
  | _ => none

/-- The form `a, b, d`: two operands and one destination. -/
def asmFormOOD (f : Operand → Operand → Dest → Instr) : List (Bool × Word) → Option Instr
  | [a, b, d] => (asmDestArg d).map (f (asmOperand a) (asmOperand b))
  | _ => none

/-- The instruction of a mnemonic and its operands (R83, R84); `none` where the operands do not fit. -/
def asmInstr (m : Mnemonic) (args : List (Bool × Word)) : Option Instr :=
  match m with
  | .add => asmFormOOD .add args
  | .mul => asmFormOOD .mul args
  | .lt => asmFormOOD .lt args
  | .eq => asmFormOOD .eq args
  | .inp => asmFormD .inp args
  | .out => asmFormO .out args
  | .jt => asmFormOO .jt args
  | .jf => asmFormOO .jf args
  | .hlt => asmForm0 .hlt args
  | .mov => asmFormOD (fun a d => .add a (.immediate 0) d) args
  | .clr => asmFormD (fun d => .add (.immediate 0) (.immediate 0) d) args
  | .jmp => asmFormO (fun t => .jt (.immediate 1) t) args
  | .nop => asmForm0 (.jf (.immediate 1) (.immediate 0)) args

/-- The cells a mnemonic assembles to (R75, R84). -/
def Mnemonic.cells : Mnemonic → Nat
  | .add | .mul | .lt | .eq | .mov | .clr => 4
  | .jt | .jf | .jmp | .nop => 3
  | .inp | .out => 2
  | .hlt => 1

/-- The cells an item takes. -/
def AsmItem.cells : AsmItem → Nat
  | .label _ => 0
  | .word _ => 1
  | .op m _ => m.cells

/-- Each label with the address of the next cell (R83), the first item at address `a`. -/
def asmLabels : Nat → List AsmItem → List (List Char × Nat)
  | _, [] => []
  | a, .label name :: rest => (name, a) :: asmLabels a rest
  | a, .word v :: rest => asmLabels (a + (AsmItem.word v).cells) rest
  | a, .op m args :: rest => asmLabels (a + (AsmItem.op m args).cells) rest

/-- A number as a cell value; `none` outside [CELL_MIN, CELL_MAX]. -/
def asmCell (v : Int) : Option Word :=
  if Config.cellMin ≤ v ∧ v ≤ Config.cellMax then some (Word.ofInt v) else none

/-- The cell value of `v` (R83). -/
def asmValue (labels : List (List Char × Nat)) : AsmValue → Option Word
  | .number v => asmCell v
  | .label name => (labels.lookup name).bind (fun a => asmCell a)

/-- The operands with their values. -/
def asmArgs (labels : List (List Char × Nat)) : List AsmArg → Option (List (Bool × Word))
  | [] => some []
  | arg :: rest =>
    match asmValue labels arg.value, asmArgs labels rest with
    | some v, some vs => some ((arg.immediate, v) :: vs)
    | _, _ => none

/-- The cells of one item (R85). -/
def asmItemCells (labels : List (List Char × Nat)) : AsmItem → Option (List Word)
  | .label _ => some []
  | .word v => (asmValue labels v).map (fun c => [c])
  | .op m args => ((asmArgs labels args).bind (asmInstr m)).map encode

/-- The cells of the items in order. -/
def asmItems (labels : List (List Char × Nat)) : List AsmItem → Option (List Word)
  | [] => some []
  | item :: rest =>
    match asmItemCells labels item, asmItems labels rest with
    | some cs, some more => some (cs ++ more)
    | _, _ => none

/-- Whether a name occurs twice. -/
def hasRepeat : List (List Char) → Bool
  | [] => false
  | name :: rest => rest.contains name || hasRepeat rest

/-- The image a list of items assembles to, from address 0; `none` where a value, an operand or a label will not do. -/
def assemble (items : List AsmItem) : Option (List Word) :=
  let labels := asmLabels 0 items
  if hasRepeat (labels.map Prod.fst) then none else asmItems labels items

/-! ## Text -/

/-- The text cut at every character `cut` accepts; pieces may be empty. -/
def splitChars (cut : Char → Bool) : List Char → List (List Char)
  | [] => [[]]
  | c :: rest =>
    if cut c then [] :: splitChars cut rest
    else
      match splitChars cut rest with
      | [] => [[c]]
      | piece :: more => (c :: piece) :: more

/-- A line up to its comment: "Comments start with `;`" (R83). -/
def dropComment (line : List Char) : List Char := line.takeWhile (fun c => c != ';')

/-- The tokens of a line: blanks and commas separate them (log entry 11). -/
def lineTokens (line : List Char) : List (List Char) :=
  (splitChars (fun c => c == ' ' || c == '\t' || c == '\r' || c == ',') (dropComment line)).filter (fun t => !t.isEmpty)

/-- A run of decimal digits as a number, added to `acc`. -/
def digitsValue : Nat → List Char → Option Nat
  | acc, [] => some acc
  | acc, c :: rest => if c.isDigit then digitsValue (acc * 10 + (c.toNat - 48)) rest else none

/-- A decimal number, possibly negative. -/
def numberOf : List Char → Option Int
  | [] => none
  | '-' :: c :: rest => (digitsValue 0 (c :: rest)).map (fun n => -(n : Int))
  | c :: rest => (digitsValue 0 (c :: rest)).map (fun n => (n : Int))

/-- `v` of R83: a token that is no number is a label. -/
def valueOfToken (t : List Char) : AsmValue :=
  match numberOf t with
  | some v => .number v
  | none => .label t

/-- `#v` or `v` (R83). -/
def argOfToken : List Char → AsmArg
  | '#' :: rest => ⟨true, valueOfToken rest⟩
  | t => ⟨false, valueOfToken t⟩

/-- The mnemonics as written (R83, R84). -/
def mnemonicNames : List (List Char × Mnemonic) :=
  [ (['A', 'D', 'D'], .add), (['M', 'U', 'L'], .mul), (['I', 'N'], .inp), (['O', 'U', 'T'], .out), (['J', 'T'], .jt),
    (['J', 'F'], .jf), (['L', 'T'], .lt), (['E', 'Q'], .eq), (['H', 'L', 'T'], .hlt), (['M', 'O', 'V'], .mov),
    (['C', 'L', 'R'], .clr), (['J', 'M', 'P'], .jmp), (['N', 'O', 'P'], .nop) ]

/-- A token `name:` as the label it declares. -/
def labelOfToken (t : List Char) : Option (List Char) :=
  match t.reverse with
  | ':' :: c :: rest => some (c :: rest).reverse
  | _ => none

/-- The items of a line's tokens: labels, then at most one `.word` or instruction (R83). -/
def lineItems : List (List Char) → Option (List AsmItem)
  | [] => some []
  | t :: rest =>
    match labelOfToken t with
    | some name => (lineItems rest).map (fun items => .label name :: items)
    | none =>
      if t = ['.', 'w', 'o', 'r', 'd'] then
        match rest with
        | [v] => some [.word (valueOfToken v)]
        | _ => none
      else
        match mnemonicNames.lookup t with
        | some m => some [.op m (rest.map argOfToken)]
        | none => none

/-- The items of a text, line by line. -/
def textItems : List (List Char) → Option (List AsmItem)
  | [] => some []
  | line :: rest =>
    match lineItems (lineTokens line), textItems rest with
    | some items, some more => some (items ++ more)
    | _, _ => none

/-- The image an assembly text stands for; `none` where the text is not of the notation. -/
def assembleText (text : List Char) : Option (List Word) :=
  (textItems (splitChars (fun c => c == '\n') text)).bind assemble

end Sys2Proof.Machine
end

