-- ==== Sys2Proof/Machine/HostOps.lean ====
section
/-! DEFINITION. The host interface (spec/70_reset_and_hazards.md rules R220 to R228): the host's operations and when each is
allowed, reset, what the host observes, and the result of a run. -/

namespace Sys2Proof.Machine

/-! ## Reset -/

/-- Reset (R220, R37): the reset values, over what the host has set. -/
def Setup.reset (p : Setup) : State where
  mem := p.mem
  ip := 0
  run := .running
  fault := none
  diag := none
  inSeq := p.inSeq
  inPtr := 0
  outSeq := []
  steps := 0
  stepLimit := p.stepLimit

/-- What a reset leaves as it is (R220, R221): memory as the last run left it, the input sequence and the limit. -/
def State.setup (s : State) : Setup := ⟨s.mem, s.inSeq, s.stepLimit⟩

/-- Reset applied in any state (R220). -/
def State.resetAgain (s : State) : State := s.setup.reset

/-- Nothing loaded, no input, no limit. -/
def Setup.empty : Setup := ⟨⟨[], 0⟩, [], none⟩

/-! ## Operations -/

/-- The block as the host sees it: before the first reset, when only what the host has set exists, or with a state. -/
inductive Block where
  | beforeReset (p : Setup)
  | started (s : State)
deriving DecidableEq, Repr

/-- The host's operations that act on the block (R224). -/
inductive HostOp where
  | load (image : List Word)
  | poke (a v : Word)
  | setInput (seq : List Word)
  | setStepLimit (l : Option Nat)
  | reset
deriving DecidableEq, Repr

/-- What `load`, `poke`, `set_input` and `set_step_limit` do (R224). `none`: an image longer than 2^62 cells (D21) or a poke
outside memory, which the host must not do. `reset` sets nothing. -/
def HostOp.apply (op : HostOp) (p : Setup) : Option Setup :=
  match op with
  | .load image => if image.length ≤ Config.memLenMax then some { p with mem := .ofImage image } else none
  | .poke a v =>
    match memWrite p.mem a v with
    | .ok m => some { p with mem := m }
    | .error _ => none
  | .setInput seq => some { p with inSeq := seq }
  | .setStepLimit l => some { p with stepLimit := l }
  | .reset => some p

/-- The state with what the host has set changed; the rest stays for the host to observe (R224). -/
def State.withSetup (s : State) (p : Setup) : State :=
  { s with mem := p.mem, inSeq := p.inSeq, stepLimit := p.stepLimit }

/-- A host operation (R224). `reset` is allowed at any time, the others only while `RUN ≠ Running` or before the first reset;
`none` is an operation the host does not have then. -/
def hostAct (op : HostOp) (b : Block) : Option Block :=
  match op, b with
  | .reset, .beforeReset p => some (.started p.reset)
  | .reset, .started s => some (.started s.resetAgain)
  | op, .beforeReset p => (op.apply p).map .beforeReset
  | op, .started s => if s.run = .running then none else (op.apply s.setup).map (fun p => .started (s.withSetup p))

/-- Operations one after another; `none` as soon as one is not allowed. -/
def hostActs : List HostOp → Block → Option Block
  | [], b => some b
  | op :: ops, b => (hostAct op b).bind (hostActs ops)

/-- What `observe()` returns (R224). -/
structure Observation where
  run : RunState
  fault : Option FaultRecord
  ip : Word
  mem : Memory
  diag : Option Word
  outSeq : List Word
  inPtr : Nat
  steps : Nat
deriving DecidableEq, Repr

/-- `observe()`, allowed only while `RUN ≠ Running` (R224, R67). -/
def observe (s : State) : Option Observation :=
  if s.run = .running then none
  else some ⟨s.run, s.fault, s.ip, s.mem, s.diag, s.outSeq, s.inPtr, s.steps⟩

/-! ## A run and its result -/

/-- The boot of R222 with `image` copied into memory. -/
def boot (image inSeq : List Word) (stepLimit : Option Nat) : State :=
  (Setup.mk (.ofImage image) inSeq stepLimit).reset

/-- At most `fuel` steps, stopping where the run ends (R225). -/
def runFor : Nat → State → State
  | 0, s => s
  | fuel + 1, s =>
    match step s with
    | .next t => runFor fuel t
    | .fault _ => s
    | .refused _ => s

/-- The run has ended (R225). -/
def State.ended (s : State) : Bool := decide (s.run ≠ .running)

/-- The diagnostic projection of a halted run (R226). -/
def diagnostic (s : State) : Option Word :=
  match s.diag with
  | some v => some v
  | none => if 0 < s.mem.len then some (s.mem.read 0) else none

/-- The result of a run that has ended (R227). -/
inductive RunResult where
  /-- Halted: final memory, diagnostic value, outputs. -/
  | halted (mem : Memory) (diagnostic : Option Word) (outputs : List Word)
  /-- Faulted: the fault record and no result. -/
  | faulted (record : FaultRecord)
deriving DecidableEq, Repr

/-- The execution result (R227); `none` while the block runs. -/
def executionResult (s : State) : Option RunResult :=
  match s.run with
  | .running => none
  | .halted => some (.halted s.mem (diagnostic s) s.outSeq)
  | .faulted => s.fault.map .faulted

/-- Noun and verb injection (R228): `MEM[1] <- noun`, `MEM[2] <- verb`, both in [0, 99], into an image of at least three
cells. -/
def inject (p : Setup) (noun verb : Nat) : Option Setup :=
  if noun ≤ 99 ∧ verb ≤ 99 ∧ 3 ≤ p.mem.len then
    some { p with mem := (p.mem.write 1 (BitVec.ofNat 64 noun)).write 2 (BitVec.ofNat 64 verb) }
  else none

end Sys2Proof.Machine
end

