-- ==== Sys2Proof/Machine/Search.lean ====
section
/-! DEFINITION. The parameter search, a host procedure over runs of the block (spec/70_reset_and_hazards.md rules R229, R230,
60_exceptions.md rule R200). A run may be endless (R192), so the model bounds every run by a number of steps and says so in
the result (log entry 10). -/

namespace Sys2Proof.Machine

/-- How one trial ends. -/
inductive Trial where
  /-- Halted, with its diagnostic value (R226). -/
  | halted (diagnostic : Option Word)
  /-- Faulted (R230). -/
  | faulted (record : FaultRecord)
  /-- The run had not ended after the number of steps allowed. -/
  | unfinished
  /-- The image is too short to inject into (R228). -/
  | notInjected
deriving DecidableEq, Repr

/-- Run a fresh copy of the program with `noun` and `verb` injected (R221, R229). -/
def trial (fuel : Nat) (p : Setup) (noun verb : Nat) : Trial :=
  match inject p noun verb with
  | none => .notInjected
  | some q =>
    match executionResult (runFor fuel q.reset) with
    | none => .unfinished
    | some (.halted _ d _) => .halted d
    | some (.faulted r) => .faulted r

/-- The pairs in row-major order: noun outer, verb inner, each 0 to 99 (R229). -/
def searchPairs : List (Nat × Nat) :=
  (List.range 100).flatMap (fun noun => (List.range 100).map (fun verb => (noun, verb)))

/-- How a search ends (R229, R230). -/
inductive SearchResult where
  /-- The first match; the answer is `100*noun + verb`. -/
  | found (noun verb : Nat)
  /-- No pair matches; distinct from the pair (0, 0) (D30). -/
  | notFound
  /-- A trial faulted, so the whole search is aborted (R230). -/
  | aborted (record : FaultRecord)
  /-- A trial had not ended after the number of steps allowed. -/
  | unfinished (noun verb : Nat)
  /-- The image is too short to inject into (R228). -/
  | notInjected
deriving DecidableEq, Repr

/-- The scan over a list of pairs (R229): the first match ends it, a fault aborts it, a wrong value goes on. -/
def searchList (target : Word) (run : Nat → Nat → Trial) : List (Nat × Nat) → SearchResult
  | [] => .notFound
  | (noun, verb) :: rest =>
    match run noun verb with
    | .halted d => if d = some target then .found noun verb else searchList target run rest
    | .faulted r => .aborted r
    | .unfinished => .unfinished noun verb
    | .notInjected => .notInjected

/-- The parameter search for `target` (R229), each run of at most `fuel` steps. -/
def parameterSearch (fuel : Nat) (p : Setup) (target : Word) : SearchResult :=
  searchList target (trial fuel p) searchPairs

/-- The answer of a successful search (R229). -/
def searchAnswer (noun verb : Nat) : Nat := 100 * noun + verb

end Sys2Proof.Machine
end

