-- ==== Sys2Proof/Safety.lean ====
section
/-! DEFINITION. The terms the statements use: when an operand can be read and what it is worth, what a store leaves alone,
and the invariant of a run. They are written from the rules, not from the machine's own operations. -/

namespace Sys2Proof.Machine

/-- `a ∈ [0, MEM_LEN)` (R51). -/
abbrev InMemory (m : Memory) (a : Word) : Prop := 0 ≤ a.toInt ∧ a.toInt < m.len

/-- The operand can be read: Immediate always, Positional when its address is in memory (R78, R52). -/
abbrev Readable (m : Memory) (o : Operand) : Prop :=
  match o with
  | .immediate _ => True
  | .positional p => InMemory m p

/-- The value of an operand that can be read (R78). -/
def valueOf (m : Memory) (o : Operand) : Word :=
  match o with
  | .immediate p => p
  | .positional p => m.read p.toNat

/-- `r ∈ [CELL_MIN, CELL_MAX]` (R8, R130). -/
abbrev InCellRange (r : Int) : Prop := -9223372036854775808 ≤ r ∧ r ≤ 9223372036854775807

/-- Every cell but the one at `d` reads as before, and the length is as before. -/
def SameCellsBut (m m' : Memory) (d : Word) : Prop :=
  m'.len = m.len ∧ ∀ a : Nat, (a : Int) ≠ d.toInt → m'.read a = m.read a

/-- Every cell reads as before, and the length is as before. -/
def SameCells (m m' : Memory) : Prop := m'.len = m.len ∧ ∀ a : Nat, m'.read a = m.read a

/-- The input side is as before: `IN_SEQ`, `IN_PTR`. -/
def SameInput (s t : State) : Prop := t.inSeq = s.inSeq ∧ t.inPtr = s.inPtr

/-- The output side is as before: `DIAG`, `OUT_SEQ`. -/
def SameOutput (s t : State) : Prop := t.diag = s.diag ∧ t.outSeq = s.outSeq

/-- `RUN`, `FAULT` and `STEP_LIMIT` are as before. -/
def SameControl (s t : State) : Prop := t.run = s.run ∧ t.fault = s.fault ∧ t.stepLimit = s.stepLimit

/-- The step limit lets the next instruction run (R101). -/
abbrev UnderLimit (s : State) : Prop := ∀ l ∈ s.stepLimit, s.steps < l

/-- The instruction completed or took a fault, and `STEPS`, `RUN`, `FAULT`, `STEP_LIMIT` say which (R108, R181). -/
def CompletedOrFaulted (s t : State) : Prop :=
  t.stepLimit = s.stepLimit ∧
    ((t.run = s.run ∧ t.fault = s.fault ∧ t.steps = s.steps + 1) ∨
      (t.run = .faulted ∧ t.fault.isSome ∧ t.steps = s.steps ∧ t.ip = s.ip))

/-- The next state of a step that takes a fault (R181), the fields of the record written out. -/
def faultNext (s : State) (kind : FaultKind) (addr word : Option Word) (opcode : Option Int) :
    Host.Outcome State Fault Refusal :=
  .next { s with run := .faulted, fault := some ⟨kind, s.ip, addr, word, opcode⟩ }

/-- `t` is `s` after fault entry (R181): `RUN` and `FAULT` only. -/
def FaultEntered (s t : State) (r : FaultRecord) : Prop :=
  t = { s with run := .faulted, fault := some r } ∧ r.ip = s.ip

/-- The first `n` cells of memory from address `a` on. -/
def cellsAt (m : Memory) (a n : Nat) : List Word := (List.range n).map (fun k => m.read (a + k))

/-- Which fields a fault record of each kind holds (R27, R180 to R188). -/
def recordFieldsOk (r : FaultRecord) : Prop :=
  (r.addr.isSome ↔ r.kind = .outOfBounds ∨ r.kind = .malformedProgram) ∧
  (r.opcode.isSome ↔ r.kind = .invalidOpcode) ∧
  (r.kind = .stepLimitExceeded → r.word = none) ∧
  (r.word = none → r.kind = .stepLimitExceeded ∨ r.kind = .outOfBounds ∨ r.kind = .malformedProgram)

/-- What holds between the fields of a state the block can be in: memory canonical (log entry 2) and not too long (R8), a
fault recorded exactly in Faulted (R26, R27) about the instruction at `IP`, the input index inside the sequence (R29), `DIAG`
the last output (R143), and no more steps than the limit (R101). -/
structure StateInv (s : State) : Prop where
  memWf : s.mem.wf
  memLen : s.mem.len ≤ Config.memLenMax
  faultRecorded : s.run = .faulted ↔ s.fault.isSome
  faultIp : ∀ r ∈ s.fault, r.ip = s.ip
  faultFields : ∀ r ∈ s.fault, recordFieldsOk r
  inPtrInside : s.inPtr ≤ s.inSeq.length
  diagIsLast : s.diag = s.outSeq.getLast?
  withinLimit : ∀ l ∈ s.stepLimit, s.steps ≤ l

end Sys2Proof.Machine
end

