-- ==== Sys2Proof/Certificates/Slice0/Obligations.lean ====
section
/-! DEFINITION. The statements for the provers, each about the model and from the spec's rules. -/

open Sys2Proof Sys2Proof.Machine

/-! ## Decoding and encoding -/

/-- 30_encoding.md sections 1 to 4: decoding the cells of an instruction gives it back and leaves the rest alone. -/
def Obligations.DecodeOfEncodeIsSame : Prop :=
  ∀ (i : Instr) (rest : List Word), decode (encode i ++ rest) = .ok (i, rest)

/-- 30_encoding.md sections 1 to 4: what the decoder accepts is exactly the encoding of the instruction it gives. -/
def Obligations.EncodeOfDecodeIsSame : Prop :=
  ∀ (cells : List Word) (i : Instr) (rest : List Word), decode cells = .ok (i, rest) → encode i ++ rest = cells

/-- 30_encoding.md section 2: the decoder of 40_decode.md accepts exactly the words the five conditions allow, and names the
condition that fails. -/
def Obligations.DecoderAcceptsExactlyLegalWords : Prop :=
  ∀ w : Word,
    ((∃ h, decodeHead w = .ok h) ↔ wordLegal w = true) ∧
    ((wordNonNegative w && (fieldsOf w.toNat).opcodeListed) = false → ∃ v, decodeHead w = .error (.invalidOpcode v)) ∧
    ((wordNonNegative w && (fieldsOf w.toNat).opcodeListed) = true → wordLegal w = false →
      decodeHead w = .error .invalidMode)

/-- 30_encoding.md section 3: the 45 legal words, by mnemonic; every other word is InvalidOpcode or InvalidMode. The table is an
inference the spec marks as its own ("[derived: from rule R74 and rule R75]"). -/
def Obligations.FortyFiveLegalWords : Prop :=
  ∀ w : Word,
    ((∃ h, decodeHead w = .ok h ∧ h.op = .add) ↔ w.toInt ∈ ([1, 101, 1001, 1101, 10001, 10101, 11001, 11101] : List Int)) ∧
    ((∃ h, decodeHead w = .ok h ∧ h.op = .mul) ↔ w.toInt ∈ ([2, 102, 1002, 1102, 10002, 10102, 11002, 11102] : List Int)) ∧
    ((∃ h, decodeHead w = .ok h ∧ h.op = .inp) ↔ w.toInt ∈ ([3, 103] : List Int)) ∧
    ((∃ h, decodeHead w = .ok h ∧ h.op = .out) ↔ w.toInt ∈ ([4, 104] : List Int)) ∧
    ((∃ h, decodeHead w = .ok h ∧ h.op = .jt) ↔ w.toInt ∈ ([5, 105, 1005, 1105] : List Int)) ∧
    ((∃ h, decodeHead w = .ok h ∧ h.op = .jf) ↔ w.toInt ∈ ([6, 106, 1006, 1106] : List Int)) ∧
    ((∃ h, decodeHead w = .ok h ∧ h.op = .lt) ↔ w.toInt ∈ ([7, 107, 1007, 1107, 10007, 10107, 11007, 11107] : List Int)) ∧
    ((∃ h, decodeHead w = .ok h ∧ h.op = .eq) ↔ w.toInt ∈ ([8, 108, 1008, 1108, 10008, 10108, 11008, 11108] : List Int)) ∧
    ((∃ h, decodeHead w = .ok h ∧ h.op = .hlt) ↔ w.toInt ∈ ([99] : List Int)) ∧
    ((∀ h, decodeHead w ≠ .ok h) → decodeHead w = .error .invalidMode ∨ ∃ v, decodeHead w = .error (.invalidOpcode v))

/-- 30_encoding.md sections 1 and 3: words written out by hand decode to the instructions they stand for, one or more of
every family. -/
def Obligations.WrittenWordsDecode : Prop :=
  decode [1101, 4, 3, 0] = .ok (.add (.immediate 4) (.immediate 3) ⟨.positional, 0⟩, []) ∧
  decode [11101, 2, 3, 0] = .ok (.add (.immediate 2) (.immediate 3) ⟨.immediate, 0⟩, []) ∧
  decode [1002, 4, 3, 6] = .ok (.mul (.positional 4) (.immediate 3) ⟨.positional, 6⟩, []) ∧
  decode [3, 0] = .ok (.inp ⟨.positional, 0⟩, []) ∧
  decode [104, -7] = .ok (.out (.immediate (-7)), []) ∧
  decode [1005, 7, 0] = .ok (.jt (.positional 7) (.immediate 0), []) ∧
  decode [106, 0, 8] = .ok (.jf (.immediate 0) (.positional 8), []) ∧
  decode [10107, 3, 5, 0] = .ok (.lt (.immediate 3) (.positional 5) ⟨.immediate, 0⟩, []) ∧
  decode [8, 5, 6, 0] = .ok (.eq (.positional 5) (.positional 6) ⟨.positional, 0⟩, []) ∧
  decode [99, 1] = .ok (.hlt, [1])

/-! ## The step -/

/-- 40_decode.md sections 2 and 3: when the cells at `IP` decode to an instruction, the step is that instruction's execution
and nothing around it. -/
def Obligations.StepRunsDecodedInstruction : Prop :=
  ∀ (s : State) (n : Nat) (i : Instr) (rest : List Word),
    s.run = .running → UnderLimit s → s.mem.len ≤ Config.memLenMax →
    0 ≤ s.ip.toInt → s.ip.toInt + n ≤ s.mem.len →
    decode (cellsAt s.mem s.ip.toNat n) = .ok (i, rest) →
    i.wf = true ∧ step s = exec i s

/-- 40_decode.md section 1: a step is enabled exactly when `RUN = Running`, and then always. That `step` answers
`noStepHalted` and `noStepFaulted` where there is no step is the model's choice of names (log entry 4, DEDUCED): the rule
says only that there is none. -/
def Obligations.StepEnabledExactlyWhileRunning : Prop :=
  ∀ s : State,
    (s.run = .running ↔ ∃ t, step s = .next t) ∧
    (s.run = .halted → step s = .fault .noStepHalted) ∧
    (s.run = .faulted → step s = .fault .noStepFaulted)

/-- 40_decode.md section 3: every instruction, in every state, ends in a next state: its effects or the fault it raises. -/
def Obligations.ExecAlwaysAnswersNext : Prop :=
  ∀ (i : Instr) (s : State), ∃ t, exec i s = .next t

/-- R101: the limit check comes first, does nothing else when it fires, and fires in no other case. -/
def Obligations.StepLimitCheckedFirst : Prop :=
  ∀ s : State, s.run = .running →
    (¬ UnderLimit s → step s = faultNext s .stepLimitExceeded none none none) ∧
    (UnderLimit s → ∀ t, step s = .next t → t.run = .faulted → ∀ r ∈ t.fault, r.kind ≠ .stepLimitExceeded)

/-- 40_decode.md section 2, 20_memory.md section 2: a word fetch outside memory faults, by the sign of `IP`. -/
def Obligations.WordFetchOutsideMemoryFaults : Prop :=
  ∀ s : State, s.run = .running → UnderLimit s →
    (s.ip.toInt < 0 → step s = faultNext s .outOfBounds (some s.ip) none none) ∧
    ((s.mem.len : Int) ≤ s.ip.toInt → step s = faultNext s .malformedProgram (some s.ip) none none)

/-- R183, R186: a word that is no instruction faults before any parameter is fetched, with the record each rule gives. -/
def Obligations.IllegalWordFaults : Prop :=
  ∀ (s : State) (w : Word), s.run = .running → UnderLimit s → InMemory s.mem s.ip → s.mem.read s.ip.toNat = w →
    (w.toInt < 0 → step s = faultNext s .invalidOpcode none (some w) (some w.toInt)) ∧
    (0 ≤ w.toInt → w.toInt % 100 ∉ ([1, 2, 3, 4, 5, 6, 7, 8, 99] : List Int) →
      step s = faultNext s .invalidOpcode none (some w) (some (w.toInt / 10 % 10 * 10 + w.toInt % 10))) ∧
    (0 ≤ w.toInt → w.toInt % 100 ∈ ([1, 2, 3, 4, 5, 6, 7, 8, 99] : List Int) → wordLegal w = false →
      step s = faultNext s .invalidMode none (some w) none) ∧
    FaultKind.code .invalidOpcode = 2 ∧ FaultKind.code .invalidMode = 5

/-- 40_decode.md section 2: the parameters are the cells after the word, in order, and their fetch fails only with
MalformedProgram at the first one past the end. That it fails in no other way is an inference the spec marks as its own
("[derived: from rule R102 and 20_memory.md rule R54]"). -/
def Obligations.ParameterFetch : Prop :=
  ∀ (s : State) (h : Head), s.run = .running → UnderLimit s → s.mem.len ≤ Config.memLenMax → InMemory s.mem s.ip →
    decodeHead (s.mem.read s.ip.toNat) = .ok h →
    (s.ip.toInt + h.op.params < s.mem.len →
      fetchInstr s = .ok (h.assemble (cellsAt s.mem (s.ip.toNat + 1) h.op.params))) ∧
    ((s.mem.len : Int) ≤ s.ip.toInt + h.op.params →
      step s = faultNext s .malformedProgram (some (Word.ofInt s.mem.len)) (some (s.mem.read s.ip.toNat)) none)

/-! ## What each instruction does -/

/-- 41_arith.md section 2, ADD: the exact sum is written, everything else as the rule says. -/
def Obligations.AddWritesSum : Prop :=
  ∀ (a b : Operand) (d : Dest) (s : State),
    Readable s.mem a → Readable s.mem b → InMemory s.mem d.addr →
    InCellRange ((valueOf s.mem a).toInt + (valueOf s.mem b).toInt) →
    ∃ t, exec (.add a b d) s = .next t ∧
      (t.mem.read d.addr.toNat).toInt = (valueOf s.mem a).toInt + (valueOf s.mem b).toInt ∧
      SameCellsBut s.mem t.mem d.addr ∧ t.ip = s.ip + 4 ∧ t.steps = s.steps + 1 ∧
      SameInput s t ∧ SameOutput s t ∧ SameControl s t

/-- 41_arith.md section 2, MUL: the exact product is written, everything else as the rule says. -/
def Obligations.MulWritesProduct : Prop :=
  ∀ (a b : Operand) (d : Dest) (s : State),
    Readable s.mem a → Readable s.mem b → InMemory s.mem d.addr →
    InCellRange ((valueOf s.mem a).toInt * (valueOf s.mem b).toInt) →
    ∃ t, exec (.mul a b d) s = .next t ∧
      (t.mem.read d.addr.toNat).toInt = (valueOf s.mem a).toInt * (valueOf s.mem b).toInt ∧
      SameCellsBut s.mem t.mem d.addr ∧ t.ip = s.ip + 4 ∧ t.steps = s.steps + 1 ∧
      SameInput s t ∧ SameOutput s t ∧ SameControl s t

/-- 44_compare.md, LT: 1 if the first operand is less (signed, strict), else 0. -/
def Obligations.LtWritesComparison : Prop :=
  ∀ (a b : Operand) (d : Dest) (s : State),
    Readable s.mem a → Readable s.mem b → InMemory s.mem d.addr →
    ∃ t, exec (.lt a b d) s = .next t ∧
      (t.mem.read d.addr.toNat).toInt = (if (valueOf s.mem a).toInt < (valueOf s.mem b).toInt then 1 else 0) ∧
      SameCellsBut s.mem t.mem d.addr ∧ t.ip = s.ip + 4 ∧ t.steps = s.steps + 1 ∧
      SameInput s t ∧ SameOutput s t ∧ SameControl s t

/-- 44_compare.md, EQ: 1 if the operands are the same cell value, else 0. -/
def Obligations.EqWritesComparison : Prop :=
  ∀ (a b : Operand) (d : Dest) (s : State),
    Readable s.mem a → Readable s.mem b → InMemory s.mem d.addr →
    ∃ t, exec (.eq a b d) s = .next t ∧
      (t.mem.read d.addr.toNat).toInt = (if (valueOf s.mem a).toInt = (valueOf s.mem b).toInt then 1 else 0) ∧
      SameCellsBut s.mem t.mem d.addr ∧ t.ip = s.ip + 4 ∧ t.steps = s.steps + 1 ∧
      SameInput s t ∧ SameOutput s t ∧ SameControl s t

/-- 42_io.md section 2, IN: the next input value is written and consumed. -/
def Obligations.InWritesNextInput : Prop :=
  ∀ (d : Dest) (s : State) (v : Word),
    InMemory s.mem d.addr → s.inSeq[s.inPtr]? = some v →
    ∃ t, exec (.inp d) s = .next t ∧
      t.mem.read d.addr.toNat = v ∧ SameCellsBut s.mem t.mem d.addr ∧
      t.inPtr = s.inPtr + 1 ∧ t.inSeq = s.inSeq ∧ t.ip = s.ip + 2 ∧ t.steps = s.steps + 1 ∧
      SameOutput s t ∧ SameControl s t

/-- 42_io.md sections 2 and 3, OUT: the operand becomes `DIAG` and the last element of `OUT_SEQ`. -/
def Obligations.OutRecordsOperand : Prop :=
  ∀ (a : Operand) (s : State), Readable s.mem a →
    ∃ t, exec (.out a) s = .next t ∧
      t.diag = some (valueOf s.mem a) ∧ t.outSeq = s.outSeq ++ [valueOf s.mem a] ∧
      t.mem = s.mem ∧ t.ip = s.ip + 2 ∧ t.steps = s.steps + 1 ∧ SameInput s t ∧ SameControl s t

/-- 43_jump.md section 2, JT: to the absolute target when the condition is not zero, else past the instruction. -/
def Obligations.JtSelectsNextIp : Prop :=
  ∀ (c g : Operand) (s : State), Readable s.mem c → Readable s.mem g →
    ∃ t, exec (.jt c g) s = .next t ∧
      t.ip = (if (valueOf s.mem c).toInt ≠ 0 then valueOf s.mem g else s.ip + 3) ∧
      t.mem = s.mem ∧ t.steps = s.steps + 1 ∧ SameInput s t ∧ SameOutput s t ∧ SameControl s t

/-- 43_jump.md section 2, JF: to the absolute target when the condition is zero, else past the instruction. -/
def Obligations.JfSelectsNextIp : Prop :=
  ∀ (c g : Operand) (s : State), Readable s.mem c → Readable s.mem g →
    ∃ t, exec (.jf c g) s = .next t ∧
      t.ip = (if (valueOf s.mem c).toInt = 0 then valueOf s.mem g else s.ip + 3) ∧
      t.mem = s.mem ∧ t.steps = s.steps + 1 ∧ SameInput s t ∧ SameOutput s t ∧ SameControl s t

/-- 45_halt.md, HLT: in every state, only `RUN` and `STEPS` change. -/
def Obligations.HltHalts : Prop :=
  ∀ s : State, exec .hlt s = .next { s with run := .halted, steps := s.steps + 1 }

/-! ## Where an instruction faults -/

/-- 30_encoding.md section 4, 60_exceptions.md sections 2 and 3: a Positional operand outside memory faults with its address,
the first operand first, a jump's target among them whether or not the jump would be taken. -/
def Obligations.OperandOutsideMemoryFaults : Prop :=
  ∀ (p : Word) (a b : Operand) (d : Dest) (s : State), ¬ InMemory s.mem p →
    (∀ i ∈ [Instr.add (.positional p) b d, .mul (.positional p) b d, .lt (.positional p) b d, .eq (.positional p) b d,
        .out (.positional p), .jt (.positional p) b, .jf (.positional p) b],
      exec i s = faultNext s .outOfBounds (some p) (some i.word) none) ∧
    (Readable s.mem a →
      ∀ i ∈ [Instr.add a (.positional p) d, .mul a (.positional p) d, .lt a (.positional p) d, .eq a (.positional p) d,
          .jt a (.positional p), .jf a (.positional p)],
        exec i s = faultNext s .outOfBounds (some p) (some i.word) none)

/-- 20_memory.md section 2, 60_exceptions.md sections 2 and 3: a destination outside memory faults with its address, whatever
the data are: before Overflow and before InputExhausted. -/
def Obligations.DestinationOutsideMemoryFaults : Prop :=
  ∀ (a b : Operand) (d : Dest) (s : State), ¬ InMemory s.mem d.addr →
    exec (.inp d) s = faultNext s .outOfBounds (some d.addr) (some (Instr.inp d).word) none ∧
    (Readable s.mem a → Readable s.mem b →
      ∀ i ∈ [Instr.add a b d, .mul a b d, .lt a b d, .eq a b d],
        exec i s = faultNext s .outOfBounds (some d.addr) (some i.word) none)

/-- R188: a sum or product outside the cell range faults after the destination check and records the word. -/
def Obligations.OverflowFaults : Prop :=
  FaultKind.code .overflow = 7 ∧
  ∀ (a b : Operand) (d : Dest) (s : State), Readable s.mem a → Readable s.mem b → InMemory s.mem d.addr →
    (¬ InCellRange ((valueOf s.mem a).toInt + (valueOf s.mem b).toInt) →
      exec (.add a b d) s = faultNext s .overflow none (some (Instr.add a b d).word) none) ∧
    (¬ InCellRange ((valueOf s.mem a).toInt * (valueOf s.mem b).toInt) →
      exec (.mul a b d) s = faultNext s .overflow none (some (Instr.mul a b d).word) none)

/-- R187: IN with no value left faults after its destination check and records the word. The premise is the invariant that
the index is inside the sequence. -/
def Obligations.InputExhaustedFaults : Prop :=
  FaultKind.code .inputExhausted = 6 ∧
  ∀ (d : Dest) (s : State), InMemory s.mem d.addr → s.inPtr = s.inSeq.length →
    exec (.inp d) s = faultNext s .inputExhausted none (some (Instr.inp d).word) none

/-- R181: a step that faults changes `RUN` and `FAULT` and nothing else, the record is about the instruction at `IP`, and it
holds the fields of its kind. -/
def Obligations.FaultEntryIsPrecise : Prop :=
  ∀ s t : State, step s = .next t → t.run = .faulted → ∃ r, FaultEntered s t r ∧ recordFieldsOk r

/-- 60_exceptions.md section 2: a faulting instruction's record holds the word that was fetched at `IP`. -/
def Obligations.FaultRecordHoldsFetchedWord : Prop :=
  ∀ s t : State, step s = .next t → t.run = .faulted →
    ∀ r ∈ t.fault, ∀ w ∈ r.word, InMemory s.mem s.ip ∧ w = s.mem.read s.ip.toNat

/-! ## Frames -/

/-- 41_arith.md, 44_compare.md: ADD, MUL, LT, EQ leave every cell but the destination's, the input side, the output side and
the limit alone. -/
def Obligations.AluFrame : Prop :=
  ∀ (a b : Operand) (d : Dest) (s t : State),
    ∀ i ∈ [Instr.add a b d, .mul a b d, .lt a b d, .eq a b d], exec i s = .next t →
      SameCellsBut s.mem t.mem d.addr ∧ SameInput s t ∧ SameOutput s t ∧ CompletedOrFaulted s t

/-- 42_io.md: IN leaves every cell but the destination's, the input sequence and the output side alone; the index moves by one
exactly when it completes. -/
def Obligations.InFrame : Prop :=
  ∀ (d : Dest) (s t : State), exec (.inp d) s = .next t →
    SameCellsBut s.mem t.mem d.addr ∧ t.inSeq = s.inSeq ∧ SameOutput s t ∧ CompletedOrFaulted s t ∧
    t.inPtr + s.steps = s.inPtr + t.steps

/-- 42_io.md: OUT leaves all of memory and the input side alone. -/
def Obligations.OutFrame : Prop :=
  ∀ (a : Operand) (s t : State), exec (.out a) s = .next t →
    SameCells s.mem t.mem ∧ SameInput s t ∧ CompletedOrFaulted s t ∧ (t.steps = s.steps → SameOutput s t)

/-- 43_jump.md: JT and JF leave all of memory, the input side and the output side alone. -/
def Obligations.JumpFrame : Prop :=
  ∀ (c g : Operand) (s t : State), ∀ i ∈ [Instr.jt c g, .jf c g], exec i s = .next t →
    SameCells s.mem t.mem ∧ SameInput s t ∧ SameOutput s t ∧ CompletedOrFaulted s t

/-- 45_halt.md: HLT leaves all of memory, the input side, the output side, `IP`, `FAULT` and the limit alone. -/
def Obligations.HltFrame : Prop :=
  ∀ s t : State, exec .hlt s = .next t →
    SameCells s.mem t.mem ∧ SameInput s t ∧ SameOutput s t ∧ t.ip = s.ip ∧ t.fault = s.fault ∧ t.stepLimit = s.stepLimit

/-! ## Rules about the whole machine -/

/-- R68: over any number of steps the memory length is what it was, and so are the run parameters of R36. -/
def Obligations.RunParametersNeverChange : Prop :=
  ∀ (k : Nat) (s : State),
    (runFor k s).mem.len = s.mem.len ∧ (runFor k s).inSeq = s.inSeq ∧ (runFor k s).stepLimit = s.stepLimit

/-- 10_state.md section 5, 45_halt.md: Halted is entered only by the word 99, fetched from inside memory. -/
def Obligations.HaltedOnlyByHalt : Prop :=
  ∀ s t : State, step s = .next t → t.run = .halted →
    InMemory s.mem s.ip ∧ s.mem.read s.ip.toNat = 99 ∧ t = { s with run := .halted, steps := s.steps + 1 }

/-- 43_jump.md section 1: the next `IP` of every step, by the fetched instruction. -/
def Obligations.NextIpTable : Prop :=
  ∀ (s t : State) (i : Instr), s.run = .running → UnderLimit s → fetchInstr s = .ok i → step s = .next t →
    (t.run = .faulted → t.ip = s.ip) ∧
    (t.run ≠ .faulted →
      t.ip = match i with
        | .add _ _ _ | .mul _ _ _ | .lt _ _ _ | .eq _ _ _ => s.ip + 4
        | .inp _ | .out _ => s.ip + 2
        | .jt c g => if (valueOf s.mem c).toInt ≠ 0 then valueOf s.mem g else s.ip + 3
        | .jf c g => if (valueOf s.mem c).toInt = 0 then valueOf s.mem g else s.ip + 3
        | .hlt => s.ip)

/-- 10_state.md section 4: a sequential advance never wraps and ends inside memory or just past it. An inference the spec marks
as its own ("It never wraps: every sequential advance is computed only after the instruction's last parameter cell was fetched").
The premise is a clause of the invariant. -/
def Obligations.IpNeverWraps : Prop :=
  ∀ (s : State) (i : Instr), s.mem.len ≤ Config.memLenMax → fetchInstr s = .ok i →
    (s.ip + BitVec.ofNat 64 (encode i).length).toInt = s.ip.toInt + (encode i).length ∧
    s.ip.toInt + (encode i).length ≤ s.mem.len

/-- 10_state.md section 7, 40_decode.md section 3: `STEPS` counts the steps that commit. -/
def Obligations.StepsCountsCommits : Prop :=
  ∀ s t : State, step s = .next t →
    (t.run = .faulted → t.steps = s.steps) ∧ (t.run ≠ .faulted → t.steps = s.steps + 1)

/-- 20_memory.md sections 2 and 5 (the second an inference the spec marks as its own, "A write by one step is seen by every
later fetch"): what is written is what the next fetch and the next read of that address give, and no
other address is affected. -/
def Obligations.WriteIsSeenByNextAccess : Prop :=
  ∀ (m m' : Memory) (a v : Word), memWrite m a v = .ok m' →
    fetch m' a = .ok v ∧ memRead m' a = .ok v ∧
    ∀ b : Word, b ≠ a → fetch m' b = fetch m b ∧ memRead m' b = memRead m b

/-- 10_state.md section 8: the outputs of a run are invisible to the program: two states that differ in them only step alike,
and the outputs appended are the same. -/
def Obligations.OutputsAreInvisibleToProgram : Prop :=
  ∀ (s t : State) (o : List Word) (g : Option Word), step s = .next t →
    ∃ t', step { s with outSeq := o, diag := g } = .next t' ∧
      t' = { t with outSeq := t'.outSeq, diag := t'.diag } ∧
      ∃ new, t.outSeq = s.outSeq ++ new ∧ t'.outSeq = o ++ new

/-- R143: each Output appends its operand to `OUT_SEQ` and writes it to `DIAG`, and after any number of steps `DIAG` is the
last element of `OUT_SEQ`. The premise is a clause of the invariant. -/
def Obligations.DiagIsLastOutput : Prop :=
  (∀ (a : Operand) (s : State), Readable s.mem a →
    ∃ t, exec (.out a) s = .next t ∧ t.outSeq = s.outSeq ++ [valueOf s.mem a] ∧ t.diag = some (valueOf s.mem a)) ∧
  ∀ (k : Nat) (s : State), s.diag = s.outSeq.getLast? → (runFor k s).diag = (runFor k s).outSeq.getLast?

/-- 40_decode.md section 3: the decoder does not look ahead: the fetched instruction depends on its own cells alone. An
inference the spec marks as its own ("[derived: from rule R105 and rule R109]"). The length premise is a clause of the
invariant. -/
def Obligations.FetchDoesNotLookAhead : Prop :=
  ∀ (s : State) (i : Instr) (m : Memory), s.mem.len ≤ Config.memLenMax → fetchInstr s = .ok i → m.len = s.mem.len →
    (∀ k < (encode i).length, m.read (s.ip.toNat + k) = s.mem.read (s.ip.toNat + k)) →
    fetchInstr { s with mem := m } = .ok i

/-- 10_state.md section 5, 60_exceptions.md section 4: Halted and Faulted are terminal for every number of steps; a reset
starts a new run at address 0 with no fault recorded. -/
def Obligations.StoppedUntilReset : Prop :=
  ∀ s : State, s.run ≠ .running →
    (∀ k, runFor k s = s) ∧
    hostAct .reset (.started s) = some (.started s.resetAgain) ∧
    s.resetAgain.run = .running ∧ s.resetAgain.ip = 0 ∧ s.resetAgain.fault = none ∧ s.resetAgain.mem = s.mem

/-- 60_exceptions.md section 4: with a step limit set, every run ends, within the steps the limit leaves and one more. -/
def Obligations.LimitedRunEnds : Prop :=
  ∀ (s : State) (l : Nat), s.stepLimit = some l → (runFor (l - s.steps + 1) s).ended = true

/-! ## The invariant -/

/-- 10_state.md section 10: the invariant holds right after reset. That memory is empty there is the model's choice
(log entry 3). -/
def Obligations.ResetMeetsInvariant : Prop :=
  StateInv core.reset ∧ ∀ (image inSeq : List Word) (l : Option Nat), image.length ≤ Config.memLenMax → StateInv (boot image inSeq l)

/-- 10_state.md, 20_memory.md, 42_io.md section 3: every step keeps the invariant, from any state that meets it. -/
def Obligations.StepKeepsInvariant : Prop :=
  ∀ s t : State, StateInv s → step s = .next t → StateInv t

/-! ## Reset, host interface, result -/

/-- R37: the state after reset, over whatever the host has loaded or injected, and what a load puts into memory. -/
def Obligations.StateAfterReset : Prop :=
  (∀ p : Setup,
    p.reset.mem = p.mem ∧ p.reset.ip = 0 ∧ p.reset.run = .running ∧ p.reset.fault = none ∧ p.reset.diag = none ∧
    p.reset.inSeq = p.inSeq ∧ p.reset.inPtr = 0 ∧ p.reset.outSeq = [] ∧ p.reset.steps = 0 ∧
    p.reset.stepLimit = p.stepLimit) ∧
  ∀ image : List Word, (Memory.ofImage image).toImage = image ∧ (Memory.ofImage image).len = image.length

/-- 70_reset_and_hazards.md section 2: the host operations, before the first reset and after it, and when each is allowed. That
an operation the host does not have then (any but `reset` while Running, a poke outside memory, an image past the bound)
answers `none` is the model's choice (log entry 8); so is the block before its first reset as a form of its own, with nothing
to observe (log entry 9). -/
def Obligations.HostActsOnlyWhileStopped : Prop :=
  (∀ p : Setup,
    hostAct .reset (.beforeReset p) = some (.started p.reset) ∧
    (∀ image : List Word, image.length ≤ Config.memLenMax →
      hostAct (.load image) (.beforeReset p) = some (.beforeReset { p with mem := .ofImage image })) ∧
    (∀ a v : Word, InMemory p.mem a →
      hostAct (.poke a v) (.beforeReset p) = some (.beforeReset { p with mem := p.mem.write a.toNat v })) ∧
    (∀ a v : Word, ¬ InMemory p.mem a → hostAct (.poke a v) (.beforeReset p) = none) ∧
    (∀ seq, hostAct (.setInput seq) (.beforeReset p) = some (.beforeReset { p with inSeq := seq })) ∧
    ∀ l, hostAct (.setStepLimit l) (.beforeReset p) = some (.beforeReset { p with stepLimit := l })) ∧
  (∀ (image : List Word) (b : Block), Config.memLenMax < image.length → hostAct (.load image) b = none) ∧
  ∀ s : State,
    hostAct .reset (.started s) = some (.started s.resetAgain) ∧
    s.resetAgain = Setup.reset ⟨s.mem, s.inSeq, s.stepLimit⟩ ∧
    (s.run = .running → observe s = none ∧ ∀ op, op ≠ .reset → hostAct op (.started s) = none) ∧
    (s.run ≠ .running →
      observe s = some ⟨s.run, s.fault, s.ip, s.mem, s.diag, s.outSeq, s.inPtr, s.steps⟩ ∧
      (∀ image : List Word, image.length ≤ Config.memLenMax →
        hostAct (.load image) (.started s) = some (.started { s with mem := .ofImage image })) ∧
      (∀ a v : Word, InMemory s.mem a →
        hostAct (.poke a v) (.started s) = some (.started { s with mem := s.mem.write a.toNat v })) ∧
      (∀ a v : Word, ¬ InMemory s.mem a → hostAct (.poke a v) (.started s) = none) ∧
      (∀ seq, hostAct (.setInput seq) (.started s) = some (.started { s with inSeq := seq })) ∧
      ∀ l, hostAct (.setStepLimit l) (.started s) = some (.started { s with stepLimit := l }))

/-- R226, R227: the diagnostic value and the result of a run that has ended. -/
def Obligations.ResultOfEndedRun : Prop :=
  ∀ s : State,
    (s.run = .halted →
      executionResult s = some (.halted s.mem
        (if s.diag.isSome then s.diag else if 0 < s.mem.len then some (s.mem.read 0) else none) s.outSeq)) ∧
    (s.run = .faulted → ∀ r, s.fault = some r → executionResult s = some (.faulted r)) ∧
    (s.run = .running → executionResult s = none)

/-- 10_state.md section 8: the numbers the status interface shows. -/
def Obligations.StatusCodes : Prop :=
  RunState.code .running = 0 ∧ RunState.code .halted = 1 ∧ RunState.code .faulted = 2 ∧
  FaultKind.code .outOfBounds = 1 ∧ FaultKind.code .invalidOpcode = 2 ∧ FaultKind.code .malformedProgram = 3 ∧
  FaultKind.code .stepLimitExceeded = 4 ∧ FaultKind.code .invalidMode = 5 ∧ FaultKind.code .inputExhausted = 6 ∧
  FaultKind.code .overflow = 7

/-- 70_reset_and_hazards.md section 3: the search finds a pair exactly when that pair is the first that matches, every earlier
pair having halted with another value, and finds none exactly when every pair halts with another value. That a trial's run
is bounded by a number of steps is the model's choice (log entry 10). -/
def Obligations.SearchFindsFirstMatch : Prop :=
  ∀ (fuel : Nat) (p : Setup) (target : Word),
    (∀ noun verb, parameterSearch fuel p target = .found noun verb ↔
      noun ≤ 99 ∧ verb ≤ 99 ∧ trial fuel p noun verb = .halted (some target) ∧
      ∀ n v, n ≤ 99 → v ≤ 99 → searchAnswer n v < searchAnswer noun verb →
        ∃ d, trial fuel p n v = .halted d ∧ d ≠ some target) ∧
    (parameterSearch fuel p target = .notFound ↔
      ∀ n v, n ≤ 99 → v ≤ 99 → ∃ d, trial fuel p n v = .halted d ∧ d ≠ some target)

/-- 70_reset_and_hazards.md section 3: the search aborts exactly when some trial faults with every earlier pair having halted
with another value, and then with that trial's record. That a trial's run is bounded by a number of steps is the model's
choice (log entry 10). -/
def Obligations.SearchAbortsAtFirstFault : Prop :=
  ∀ (fuel : Nat) (p : Setup) (target : Word) (r : FaultRecord), parameterSearch fuel p target = .aborted r ↔
    ∃ noun verb, noun ≤ 99 ∧ verb ≤ 99 ∧ trial fuel p noun verb = .faulted r ∧
      ∀ n v, n ≤ 99 → v ≤ 99 → searchAnswer n v < searchAnswer noun verb →
        ∃ d, trial fuel p n v = .halted d ∧ d ≠ some target

/-- 30_encoding.md section 6: the pseudo-instructions are the instructions they expand to, in the cells the rule gives, MOV copies
its operand and never overflows, and NOP falls through (the last two are inferences the spec marks as its own, "`MOV` never
overflows, since `x + 0 = x`"). -/
def Obligations.PseudoInstructions : Prop :=
  (Mnemonic.cells .mov = 4 ∧ Mnemonic.cells .clr = 4 ∧ Mnemonic.cells .jmp = 3 ∧ Mnemonic.cells .nop = 3) ∧
  (∀ (m : Mnemonic) (args : List (Bool × Word)) (i : Instr), asmInstr m args = some i → (encode i).length = m.cells) ∧
  (∀ (a t : Bool × Word) (d : Word),
    asmInstr .mov [a, (false, d)] = asmInstr .add [a, (true, 0), (false, d)] ∧
    asmInstr .clr [(false, d)] = asmInstr .add [(true, 0), (true, 0), (false, d)] ∧
    asmInstr .jmp [t] = asmInstr .jt [(true, 1), t]) ∧
  asmInstr .nop [] = asmInstr .jf [(true, 1), (true, 0)] ∧
  (∀ (a : Bool × Word) (d : Word) (s : State), Readable s.mem (asmOperand a) → InMemory s.mem d →
    ∃ i t, asmInstr .mov [a, (false, d)] = some i ∧ exec i s = .next t ∧ t.run = s.run ∧ t.steps = s.steps + 1 ∧
      t.mem.read d.toNat = valueOf s.mem (asmOperand a)) ∧
  ∀ s : State, ∃ i, asmInstr .nop [] = some i ∧ (encode i).length = 3 ∧
    exec i s = .next { s with ip := s.ip + 3, steps := s.steps + 1 }
end

