-- ==== Sys2Proof/Laws/Decode.lean ====
section
/-! SUPPORT. What the word decoder can answer, and its agreement with the encoder on instruction words. -/

namespace Sys2Proof

theorem opcodeOf_code (op : Opcode) : opcodeOf op.code = some op := by cases op <;> rfl

theorem opcodeOf_some {n : Nat} {op : Opcode} (h : opcodeOf n = some op) : n = op.code := by
  have := List.find?_some h
  exact (beq_iff_eq.mp this).symm

theorem modeDigit_some {n k m : Nat} {mode : Mode} (h : modeDigit n k m = some mode) :
    m = mode.digit ∧ (n < k → mode = .positional) := by
  unfold modeDigit at h
  split at h
  · cases h; simp_all [Mode.digit]
  · split at h
    · cases h
      simp_all only [Mode.digit, true_and]
      omega
    · cases h

theorem modeDigit_none {n k m : Nat} (h : modeDigit n k m = none) : m ≠ 0 ∧ ¬ (m = 1 ∧ k ≤ n) := by
  unfold modeDigit at h
  split at h
  · cases h
  · split at h
    · cases h
    · exact ⟨‹_›, ‹_›⟩

/-- A mode position the opcode lacks holds Positional. -/
def Head.unusedPositional (h : Head) : Prop :=
  (h.op.params < 1 → h.m1 = .positional) ∧ (h.op.params < 2 → h.m2 = .positional) ∧
    (h.op.params < 3 → h.m3 = .positional)

theorem toNat_of_nonneg {w : Word} (h : 0 ≤ w.toInt) : w.toInt = w.toNat := by
  have := w.isLt
  simp only [BitVec.toInt] at h ⊢
  split at h <;> rename_i hlt
  · rw [if_pos hlt]
  · omega

/-- An accepted word is the number of its head, below 100000. -/
theorem decodeHead_ok {w : Word} {h : Head} (hd : decodeHead w = .ok h) :
    0 ≤ w.toInt ∧ w.toNat = h.number ∧ h.unusedPositional := by
  unfold decodeHead at hd
  split at hd
  · cases hd
  rename_i nonneg
  split at hd
  · cases hd
  rename_i op hop
  split at hd
  · cases hd
  rename_i below
  split at hd
  · rename_i m1 m2 m3 h1 h2 h3
    cases hd
    have code := opcodeOf_some hop
    obtain ⟨d1, u1⟩ := modeDigit_some h1
    obtain ⟨d2, u2⟩ := modeDigit_some h2
    obtain ⟨d3, u3⟩ := modeDigit_some h3
    refine ⟨by omega, ?_, u1, u2, u3⟩
    simp only [Head.number, digit] at *
    omega
  · cases hd

theorem word_eq_of_decodeHead_ok {w : Word} {h : Head} (hd : decodeHead w = .ok h) : w = BitVec.ofNat 64 h.number := by
  rw [← (decodeHead_ok hd).2.1]
  simp

theorem modeDigit_digit {n k : Nat} {m : Mode} (u : n < k → m = .positional) : modeDigit n k m.digit = some m := by
  cases m with
  | positional => rfl
  | immediate =>
    have : k ≤ n := not_lt.mp fun h => by cases u h
    simp [modeDigit, Mode.digit, this]

theorem code_le (op : Opcode) : op.code ≤ 99 := by cases op <;> decide

theorem Mode.digit_le (m : Mode) : m.digit ≤ 1 := by cases m <;> decide

/-- The number of a head decodes to the head, if no mode stands on a position the opcode lacks. -/
theorem decodeHead_number {h : Head} (u : h.unusedPositional) : decodeHead (BitVec.ofNat 64 h.number) = .ok h := by
  have c := code_le h.op
  have d1 := h.m1.digit_le
  have d2 := h.m2.digit_le
  have d3 := h.m3.digit_le
  have num : h.number = h.op.code + 100 * h.m1.digit + 1000 * h.m2.digit + 10000 * h.m3.digit := rfl
  have toNat : (BitVec.ofNat 64 h.number).toNat = h.number := by
    rw [BitVec.toNat_ofNat]
    exact Nat.mod_eq_of_lt (by omega)
  have nonneg : ¬ (BitVec.ofNat 64 h.number).toInt < 0 := by
    rw [BitVec.toInt_eq_toNat_of_lt (by omega)]
    omega
  have op : h.number % 100 = h.op.code := by omega
  have g1 : digit h.number 2 = h.m1.digit := by simp only [digit]; omega
  have g2 : digit h.number 3 = h.m2.digit := by simp only [digit]; omega
  have g3 : digit h.number 4 = h.m3.digit := by simp only [digit]; omega
  have below : ¬ 100000 ≤ h.number := by omega
  simp only [decodeHead, nonneg, if_false, toNat, op, opcodeOf_code, below, g1, g2, g3, modeDigit_digit u.1,
    modeDigit_digit u.2.1, modeDigit_digit u.2.2]

theorem head_unusedPositional (i : Instr) : i.head.unusedPositional := by
  cases i <;> simp [Head.unusedPositional, Instr.head, Opcode.params]

/-- The encoder's word decodes to the instruction's own head. -/
theorem decodeHead_word (i : Instr) : decodeHead i.word = .ok i.head := decodeHead_number (head_unusedPositional i)

@[simp] theorem ofParam_mode (m : Mode) (p : Word) : (Operand.ofParam m p).mode = m := by cases m <;> rfl

@[simp] theorem ofParam_raw (m : Mode) (p : Word) : (Operand.ofParam m p).raw = p := by cases m <;> rfl

@[simp] theorem ofParam_mode_raw (o : Operand) : Operand.ofParam o.mode o.raw = o := by cases o <;> rfl

/-- The instruction assembled from a decoded word has that word. -/
theorem assemble_head {h : Head} (u : h.unusedPositional) (ps : List Word) : (h.assemble ps).head = h := by
  obtain ⟨op, m1, m2, m3⟩ := h
  obtain ⟨u1, u2, u3⟩ := u
  cases op <;> simp_all [Head.assemble, Instr.head, Opcode.params]

theorem assemble_word {w : Word} {h : Head} (hd : decodeHead w = .ok h) (ps : List Word) : (h.assemble ps).word = w := by
  rw [Instr.word, assemble_head (decodeHead_ok hd).2.2, ← word_eq_of_decodeHead_ok hd]

/-- An instruction has as many parameter cells as its opcode has parameters. -/
theorem paramCells_length (i : Instr) : i.paramCells.length = i.head.op.params := by cases i <;> rfl

theorem encode_length (i : Instr) : (encode i).length = i.head.op.length := by
  simp [encode, paramCells_length, Opcode.length]

/-- Assembling an instruction's own head and parameter cells gives it back. -/
theorem assemble_paramCells (i : Instr) : i.head.assemble i.paramCells = i := by
  cases i <;> simp [Instr.head, Instr.paramCells, Head.assemble, param]

end Sys2Proof
end

