-- ==== Sys2Proof/Laws/Memory.lean ====
section
/-! SUPPORT. Program Memory: a read after a write, and that every memory operation keeps the canonical form. The read laws
need no canonical form. -/

namespace Sys2Proof.Machine

/-! ## Cells -/

theorem readCell_eraseCell (cells : List (Nat × Word)) (a b : Nat) :
    readCell (eraseCell cells a) b = if b = a then 0 else readCell cells b := by
  induction cells with
  | nil => simp [eraseCell, readCell]
  | cons c rest ih =>
    obtain ⟨k, v⟩ := c
    have erase_cons : eraseCell ((k, v) :: rest) a = if k = a then eraseCell rest a else (k, v) :: eraseCell rest a := by
      by_cases h : k = a <;> simp [eraseCell, h]
    rw [erase_cons]
    by_cases h : k = a
    · subst h
      rw [if_pos rfl, ih]
      by_cases hb : b = k <;> simp only [hb, readCell, if_true, if_false]
    · by_cases hb : b = k
      · subst hb; simp [h, readCell]
      · simp [h, readCell, hb, ih]

theorem readCell_insertCell (cells : List (Nat × Word)) (a b : Nat) (v : Word) (absent : ∀ c ∈ cells, c.1 ≠ a) :
    readCell (insertCell cells a v) b = if b = a then v else readCell cells b := by
  induction cells with
  | nil => simp [insertCell, readCell]
  | cons c rest ih =>
    obtain ⟨k, w⟩ := c
    have ih' := ih fun c hc => absent c (List.mem_cons_of_mem _ hc)
    have hk : k ≠ a := absent (k, w) List.mem_cons_self
    by_cases hlt : a < k
    · simp [insertCell, hlt, readCell]
    · by_cases hb : b = k
      · subst hb; simp [insertCell, hlt, readCell, hk]
      · simp [insertCell, hlt, readCell, hb, ih']

theorem eraseCell_absent (cells : List (Nat × Word)) (a : Nat) : ∀ c ∈ eraseCell cells a, c.1 ≠ a := by
  intro c hc
  simpa [eraseCell] using (List.mem_filter.mp hc).2

/-! ## Memory -/

@[simp] theorem write_len (m : Memory) (a : Nat) (v : Word) : (m.write a v).len = m.len := rfl

/-- A read after a write: the value written at its address, the old value elsewhere. -/
theorem read_write (m : Memory) (a b : Nat) (v : Word) :
    (m.write a v).read b = if b = a then v else m.read b := by
  by_cases hv : v = 0
  · simp [Memory.write, Memory.read, hv, readCell_eraseCell]
  · simp only [Memory.write, Memory.read, hv, if_false]
    rw [readCell_insertCell _ _ _ _ (eraseCell_absent _ _), readCell_eraseCell]
    by_cases hb : b = a <;> simp [hb]

@[simp] theorem read_write_same (m : Memory) (a : Nat) (v : Word) : (m.write a v).read a = v := by
  simp [read_write]

theorem read_write_other (m : Memory) {a b : Nat} (v : Word) (h : b ≠ a) : (m.write a v).read b = m.read b := by
  simp [read_write, h]

@[simp] theorem inBounds_write (m : Memory) (a : Nat) (v b : Word) : (m.write a v).inBounds b = m.inBounds b := rfl

/-! ## The canonical form -/

theorem mem_insertCell {cells : List (Nat × Word)} {a : Nat} {v : Word} {c : Nat × Word} :
    c ∈ insertCell cells a v ↔ c = (a, v) ∨ c ∈ cells := by
  induction cells with
  | nil => simp [insertCell]
  | cons d rest ih =>
    obtain ⟨k, w⟩ := d
    by_cases hlt : a < k
    · simp [insertCell, hlt]
    · simp only [insertCell, hlt, if_false, List.mem_cons, ih]
      tauto

theorem insertCell_rising {cells : List (Nat × Word)} {a : Nat} {v : Word}
    (rising : cells.Pairwise fun c d => c.1 < d.1) (absent : ∀ c ∈ cells, c.1 ≠ a) :
    (insertCell cells a v).Pairwise fun c d => c.1 < d.1 := by
  induction cells with
  | nil => simp [insertCell]
  | cons c rest ih =>
    obtain ⟨k, w⟩ := c
    obtain ⟨below, rest_rising⟩ := List.pairwise_cons.mp rising
    have hk : k ≠ a := absent (k, w) List.mem_cons_self
    by_cases hlt : a < k
    · simp only [insertCell, hlt, if_true, List.pairwise_cons, List.mem_cons]
      refine ⟨?_, below, rest_rising⟩
      rintro c (rfl | hc)
      · exact hlt
      · exact hlt.trans (below c hc)
    · simp only [insertCell, hlt, if_false, List.pairwise_cons]
      refine ⟨fun c hc => ?_, ih rest_rising fun c hc => absent c (List.mem_cons_of_mem _ hc)⟩
      rcases mem_insertCell.mp hc with rfl | hc
      · show k < a
        omega
      · exact below c hc

/-- A write inside memory keeps the canonical form. -/
theorem write_wf {m : Memory} (h : m.wf) {a : Nat} (inside : a < m.len) (v : Word) : (m.write a v).wf := by
  obtain ⟨rising, cells_ok⟩ := h
  have erased_rising : (eraseCell m.cells a).Pairwise fun c d => c.1 < d.1 := List.Pairwise.filter _ rising
  have erased_ok : ∀ c ∈ eraseCell m.cells a, c.2 ≠ 0 ∧ c.1 < m.len := fun c hc => cells_ok c (List.mem_filter.mp hc).1
  by_cases hv : v = 0
  · simpa [Memory.wf, Memory.write, hv] using And.intro erased_rising fun x y hc => erased_ok (x, y) hc
  · simp only [Memory.wf, Memory.write, hv, if_false]
    refine ⟨insertCell_rising erased_rising (eraseCell_absent _ _), fun c hc => ?_⟩
    rcases mem_insertCell.mp hc with rfl | hc
    · exact ⟨hv, inside⟩
    · exact erased_ok c hc

theorem imageCells_bounds {image : List Word} {a : Nat} {c : Nat × Word} (h : c ∈ imageCells a image) :
    a ≤ c.1 ∧ c.1 < a + image.length ∧ c.2 ≠ 0 := by
  induction image generalizing a with
  | nil => simp [imageCells] at h
  | cons v rest ih =>
    have later : c ∈ imageCells (a + 1) rest → a ≤ c.1 ∧ c.1 < a + (v :: rest).length ∧ c.2 ≠ 0 := by
      intro hc
      obtain ⟨h1, h2, h3⟩ := ih hc
      refine ⟨by omega, ?_, h3⟩
      simp only [List.length_cons]
      omega
    by_cases hv : v = 0
    · exact later (by simpa [imageCells, hv] using h)
    · simp only [imageCells, hv, if_false, List.mem_cons] at h
      rcases h with rfl | hc
      · exact ⟨le_refl _, by simp, hv⟩
      · exact later hc

theorem imageCells_rising (image : List Word) (a : Nat) : (imageCells a image).Pairwise fun c d => c.1 < d.1 := by
  induction image generalizing a with
  | nil => simp [imageCells]
  | cons v rest ih =>
    by_cases hv : v = 0
    · simpa [imageCells, hv] using ih (a + 1)
    · simp only [imageCells, hv, if_false, List.pairwise_cons]
      exact ⟨fun c hc => (imageCells_bounds hc).1, ih (a + 1)⟩

/-- A loaded image is canonical. -/
theorem ofImage_wf (image : List Word) : (Memory.ofImage image).wf := by
  refine ⟨imageCells_rising image 0, fun c hc => ?_⟩
  obtain ⟨-, inside, nonzero⟩ := imageCells_bounds hc
  exact ⟨nonzero, by simpa [Memory.ofImage] using inside⟩

theorem readCell_absent {cells : List (Nat × Word)} {a : Nat} (h : ∀ c ∈ cells, c.1 ≠ a) : readCell cells a = 0 := by
  induction cells with
  | nil => rfl
  | cons c rest ih =>
    obtain ⟨k, v⟩ := c
    have hk : a ≠ k := Ne.symm (h (k, v) List.mem_cons_self)
    simpa [readCell, hk] using ih fun c hc => h c (List.mem_cons_of_mem _ hc)

theorem readCell_imageCells (image : List Word) (a k : Nat) :
    readCell (imageCells a image) (a + k) = image.getD k 0 := by
  induction image generalizing a k with
  | nil => simp [imageCells, readCell]
  | cons v rest ih =>
    cases k with
    | zero =>
      by_cases hv : v = 0
      · have absent : ∀ c ∈ imageCells (a + 1) rest, c.1 ≠ a := fun c hc => by
          have := (imageCells_bounds hc).1
          omega
        simp [imageCells, hv, readCell_absent absent]
      · simp only [imageCells, hv, if_false, readCell, if_true, Nat.add_zero, List.getD_cons_zero]
    | succ k =>
      have shift : a + (k + 1) = (a + 1) + k := by omega
      by_cases hv : v = 0
      · simp [imageCells, hv, shift, ih]
      · have hne : (a + 1) + k ≠ a := by omega
        simp only [imageCells, hv, if_false, shift, readCell, hne, ih, List.getD_cons_succ]

/-- Cell `k` of a loaded image. -/
theorem read_ofImage (image : List Word) (k : Nat) : (Memory.ofImage image).read k = image.getD k 0 := by
  simpa [Memory.read, Memory.ofImage] using readCell_imageCells image 0 k

@[simp] theorem place_len (cells : List Word) (m : Memory) (a : Nat) : (m.place a cells).len = m.len := by
  induction cells generalizing m a with
  | nil => rfl
  | cons v rest ih => simp [Memory.place, ih]

/-- Placing cells inside memory keeps the canonical form. -/
theorem place_wf {m : Memory} (h : m.wf) {a : Nat} {cells : List Word} (inside : a + cells.length ≤ m.len) :
    (m.place a cells).wf := by
  induction cells generalizing m a with
  | nil => exact h
  | cons v rest ih =>
    simp only [List.length_cons] at inside
    exact ih (write_wf h (by omega) v) (by simp only [write_len]; omega)

theorem place_cells_eq (m m' : Memory) (hm : m'.cells = m.cells) (a : Nat) (cells : List Word) :
    (m'.place a cells).cells = (m.place a cells).cells := by
  induction cells generalizing m m' a with
  | nil => exact hm
  | cons v rest ih => exact ih _ _ (by simp [Memory.write, hm]) _

/-- Loading cells keeps the canonical form. -/
theorem placeProgram_wf {m : Memory} (h : m.wf) (a : Nat) (cells : List Word) : (m.placeProgram a cells).wf := by
  let longer : Memory := ⟨m.cells, max m.len (a + cells.length)⟩
  have longer_wf : longer.wf := ⟨h.1, fun c hc => ⟨(h.2 c hc).1, lt_of_lt_of_le (h.2 c hc).2 (le_max_left _ _)⟩⟩
  have placed := place_wf longer_wf (le_max_right m.len (a + cells.length))
  rw [Memory.wf, place_len, place_cells_eq m longer rfl] at placed
  exact placed

/-- The memory right after reset is canonical. -/
theorem reset_mem_wf : State.reset.mem.wf := by decide

end Sys2Proof.Machine
end

