-- ==== Sys2Proof/Laws/State.lean ====
section
/-! SUPPORT. The small lemmas of the two state updates, fault entry and commit: one per field, true by rfl. -/

namespace Sys2Proof.Machine

section raise
variable (s : State) (t : Trap) (w : Option Word)

@[simp] theorem raise_mem : (s.raise t w).mem = s.mem := rfl
@[simp] theorem raise_ip : (s.raise t w).ip = s.ip := rfl
@[simp] theorem raise_run : (s.raise t w).run = .faulted := rfl
@[simp] theorem raise_fault : (s.raise t w).fault = some ⟨t.kind, s.ip, t.addr, w, t.opcode⟩ := rfl
@[simp] theorem raise_diag : (s.raise t w).diag = s.diag := rfl
@[simp] theorem raise_inSeq : (s.raise t w).inSeq = s.inSeq := rfl
@[simp] theorem raise_inPtr : (s.raise t w).inPtr = s.inPtr := rfl
@[simp] theorem raise_outSeq : (s.raise t w).outSeq = s.outSeq := rfl
@[simp] theorem raise_steps : (s.raise t w).steps = s.steps := rfl
@[simp] theorem raise_stepLimit : (s.raise t w).stepLimit = s.stepLimit := rfl

end raise

section commit
variable (s : State) (e : Effects)

@[simp] theorem commit_ip : (s.commit e).ip = jumpMux s.ip e.next := rfl
@[simp] theorem commit_run : (s.commit e).run = if e.halt then .halted else s.run := rfl
@[simp] theorem commit_fault : (s.commit e).fault = s.fault := rfl
@[simp] theorem commit_inSeq : (s.commit e).inSeq = s.inSeq := rfl
@[simp] theorem commit_inPtr : (s.commit e).inPtr = if e.consume then s.inPtr + 1 else s.inPtr := rfl
@[simp] theorem commit_steps : (s.commit e).steps = s.steps + 1 := rfl
@[simp] theorem commit_stepLimit : (s.commit e).stepLimit = s.stepLimit := rfl

theorem commit_mem : (s.commit e).mem = match e.write with
    | none => s.mem
    | some (a, v) => s.mem.write a.toNat v := rfl

theorem commit_diag : (s.commit e).diag = match e.output with
    | none => s.diag
    | some v => some v := rfl

theorem commit_outSeq : (s.commit e).outSeq = match e.output with
    | none => s.outSeq
    | some v => s.outSeq ++ [v] := rfl

end commit

section effects
variable (n : IpSelect) (d : Dest) (v : Word) (len : Nat)

@[simp] theorem moveTo_write : (Effects.moveTo n).write = none := rfl
@[simp] theorem moveTo_next : (Effects.moveTo n).next = n := rfl
@[simp] theorem moveTo_halt : (Effects.moveTo n).halt = false := rfl
@[simp] theorem moveTo_consume : (Effects.moveTo n).consume = false := rfl
@[simp] theorem moveTo_output : (Effects.moveTo n).output = none := rfl
@[simp] theorem store_write : (Effects.store d v len).write = some (d.addr, v) := rfl
@[simp] theorem store_next : (Effects.store d v len).next = .sequential len := rfl
@[simp] theorem store_halt : (Effects.store d v len).halt = false := rfl
@[simp] theorem store_consume : (Effects.store d v len).consume = false := rfl
@[simp] theorem store_output : (Effects.store d v len).output = none := rfl

end effects

@[simp] theorem jumpMux_sequential (ip : Word) (len : Nat) : jumpMux ip (.sequential len) = ip + BitVec.ofNat 64 len := rfl
@[simp] theorem jumpMux_target (ip t : Word) : jumpMux ip (.target t) = t := rfl
@[simp] theorem jumpMux_hold (ip : Word) : jumpMux ip .hold = ip := rfl

end Sys2Proof.Machine
end

