-- ==== Sys2Proof/Laws/Ops.lean ====
section
/-! SUPPORT. One lemma per shared operation that says all it can do, and the inversion of a step. -/

namespace Sys2Proof.Machine

/-! ## Access -/

theorem inBounds_iff (m : Memory) (a : Word) : m.inBounds a = true ↔ InMemory m a := by simp [Memory.inBounds]

theorem memRead_eq (m : Memory) (a : Word) :
    memRead m a = if InMemory m a then .ok (m.read a.toNat) else .error (trapOutOfBounds a) := by
  by_cases h : InMemory m a <;> simp [memRead, Memory.inBounds, h]

theorem checkDest_eq (m : Memory) (a : Word) :
    checkDest m a = if InMemory m a then .ok () else .error (trapOutOfBounds a) := by
  by_cases h : InMemory m a <;> simp [checkDest, Memory.inBounds, h]

theorem checkDest_inMemory {m : Memory} {a : Word} (h : InMemory m a) : checkDest m a = .ok () := by
  rw [checkDest_eq, if_pos h]

theorem checkDest_outside {m : Memory} {a : Word} (h : ¬ InMemory m a) : checkDest m a = .error (trapOutOfBounds a) := by
  rw [checkDest_eq, if_neg h]

theorem fetch_ok_iff (m : Memory) (a w : Word) : fetch m a = .ok w ↔ InMemory m a ∧ m.read a.toNat = w := by
  unfold fetch
  split
  · simp only [reduceCtorEq, false_iff]; omega
  · split
    · simp only [reduceCtorEq, false_iff]; omega
    · simp only [Except.ok.injEq, iff_and_self]; omega

theorem fetch_error {m : Memory} {a : Word} {t : Trap} (h : fetch m a = .error t) :
    t = trapOutOfBounds a ∨ t = trapMalformed a := by
  unfold fetch at h
  split at h
  · exact .inl (Except.error.inj h).symm
  · split at h
    · exact .inr (Except.error.inj h).symm
    · cases h

/-! ## Operands -/

theorem resolve_readable {m : Memory} {o : Operand} (h : Readable m o) : resolve m o = .ok (valueOf m o) := by
  cases o with
  | immediate p => rfl
  | positional p => simpa [resolve, memRead_eq, valueOf] using h

theorem resolve_unreadable {m : Memory} {p : Word} (h : ¬ InMemory m p) :
    resolve m (.positional p) = .error (trapOutOfBounds p) := by
  simp only [resolve, memRead_eq, h, if_false]

/-- An operand read gives its value, or faults with its address. -/
theorem resolve_cases (m : Memory) (o : Operand) :
    (Readable m o ∧ resolve m o = .ok (valueOf m o)) ∨
    ∃ p, o = .positional p ∧ ¬ InMemory m p ∧ resolve m o = .error (trapOutOfBounds p) := by
  cases o with
  | immediate p => exact .inl ⟨trivial, rfl⟩
  | positional p =>
    by_cases h : InMemory m p
    · exact .inl ⟨h, resolve_readable (o := .positional p) h⟩
    · exact .inr ⟨p, rfl, h, resolve_unreadable h⟩

theorem resolve2_readable {m : Memory} {a b : Operand} (ha : Readable m a) (hb : Readable m b) :
    resolve2 m a b = .ok (valueOf m a, valueOf m b) := by
  simp [resolve2, resolve_readable ha, resolve_readable hb]

/-- Two operand reads give both values, or fault with the first bad address. -/
theorem resolve2_cases (m : Memory) (a b : Operand) :
    (Readable m a ∧ Readable m b ∧ resolve2 m a b = .ok (valueOf m a, valueOf m b)) ∨
    ∃ p, ¬ InMemory m p ∧ resolve2 m a b = .error (trapOutOfBounds p) := by
  rcases resolve_cases m a with ⟨ha, ra⟩ | ⟨p, -, hp, ra⟩
  · rcases resolve_cases m b with ⟨hb, -⟩ | ⟨p, -, hp, rb⟩
    · exact .inl ⟨ha, hb, resolve2_readable ha hb⟩
    · exact .inr ⟨p, hp, by simp [resolve2, ra, rb]⟩
  · exact .inr ⟨p, hp, by simp [resolve2, ra]⟩

/-! ## Results -/

theorem cell_toInt_range (w : Word) : InCellRange w.toInt := by
  have h1 := BitVec.le_toInt w
  have h2 := BitVec.toInt_lt (x := w)
  simp only [InCellRange]
  omega

theorem toInt_ofInt_of_inCellRange {r : Int} (h : InCellRange r) : (Word.ofInt r).toInt = r := by
  obtain ⟨lo, hi⟩ := h
  rw [Word.ofInt, BitVec.toInt_ofInt, Int.bmod_eq_of_le] <;> omega

/-- The result of the ALU is the exact one, or Overflow. -/
theorem narrow_eq (r : Int) : narrow r = if InCellRange r then .ok (Word.ofInt r) else .error (trapPlain .overflow) := by
  simp only [narrow, Config.cellMin, Config.cellMax, InCellRange]
  norm_num

/-! ## The rules -/

/-- The rule of each instruction, as the dispatch calls it. -/
def ruleOf (i : Instr) (s : State) : Except Trap Effects :=
  match i with
  | .add a b d => aluRule (fun x y => narrow (x.toInt + y.toInt)) a b d s
  | .mul a b d => aluRule (fun x y => narrow (x.toInt * y.toInt)) a b d s
  | .inp d => inRule d s
  | .out a => outRule a s
  | .jt c t => jumpRule (fun x => !isZero x) c t s
  | .jf c t => jumpRule isZero c t s
  | .lt a b d => aluRule (fun x y => .ok (lessThan x y)) a b d s
  | .eq a b d => aluRule (fun x y => .ok (equals x y)) a b d s
  | .hlt => .ok { Effects.moveTo .hold with halt := true }

/-- Executing an instruction is finishing its rule. -/
theorem exec_eq_finish (i : Instr) (s : State) : exec i s = finish s i.word (ruleOf i s) := by cases i <;> rfl

@[simp] theorem finish_ok (s : State) (w : Word) (e : Effects) : finish s w (.ok e) = .next (s.commit e) := rfl

@[simp] theorem finish_error (s : State) (w : Word) (t : Trap) :
    finish s w (.error t) = .next (s.raise t (some w)) := rfl

theorem finish_next {s t : State} {w : Word} {r : Except Trap Effects} (h : finish s w r = .next t) :
    (∃ e, r = .ok e ∧ t = s.commit e) ∨ (∃ tr, r = .error tr ∧ t = s.raise tr (some w)) := by
  cases r with
  | ok e => exact .inl ⟨e, rfl, by simpa using h.symm⟩
  | error tr => exact .inr ⟨tr, rfl, by simpa using h.symm⟩

/-- Executing an instruction commits the effects of its rule, or takes the fault the rule raises. -/
theorem exec_next {i : Instr} {s t : State} (h : exec i s = .next t) :
    (∃ e, ruleOf i s = .ok e ∧ t = s.commit e) ∨ (∃ tr, ruleOf i s = .error tr ∧ t = s.raise tr (some i.word)) :=
  finish_next (exec_eq_finish i s ▸ h)

/-- The storing ALU shape: the result of two readable operands into a destination in memory, or a fault. -/
theorem aluRule_cases (f : Word → Word → Except Trap Word) (a b : Operand) (d : Dest) (s : State) :
    (∃ p, ¬ InMemory s.mem p ∧ aluRule f a b d s = .error (trapOutOfBounds p)) ∨
    (Readable s.mem a ∧ Readable s.mem b ∧ InMemory s.mem d.addr ∧
      ((∃ t, f (valueOf s.mem a) (valueOf s.mem b) = .error t ∧ aluRule f a b d s = .error t) ∨
        ∃ v, f (valueOf s.mem a) (valueOf s.mem b) = .ok v ∧ aluRule f a b d s = .ok (.store d v 4))) := by
  rcases resolve2_cases s.mem a b with ⟨ha, hb, r⟩ | ⟨p, hp, r⟩
  · by_cases hd : InMemory s.mem d.addr
    · refine .inr ⟨ha, hb, hd, ?_⟩
      cases hf : f (valueOf s.mem a) (valueOf s.mem b) with
      | error t => exact .inl ⟨t, rfl, by simp [aluRule, r, checkDest_inMemory hd, destAddr, hf]⟩
      | ok v => exact .inr ⟨v, rfl, by simp [aluRule, r, checkDest_inMemory hd, destAddr, hf]⟩
    · exact .inl ⟨d.addr, hd, by simp [aluRule, r, checkDest_outside hd, destAddr]⟩
  · exact .inl ⟨p, hp, by simp [aluRule, r]⟩

/-- IN: the next input into a destination in memory, or a fault. -/
theorem inRule_cases (d : Dest) (s : State) :
    (¬ InMemory s.mem d.addr ∧ inRule d s = .error (trapOutOfBounds d.addr)) ∨
    (InMemory s.mem d.addr ∧ s.inSeq[s.inPtr]? = none ∧ inRule d s = .error (trapPlain .inputExhausted)) ∨
    (InMemory s.mem d.addr ∧ ∃ v, s.inSeq[s.inPtr]? = some v ∧
      inRule d s = .ok { Effects.store d v 2 with consume := true }) := by
  by_cases hd : InMemory s.mem d.addr
  · cases hv : s.inSeq[s.inPtr]? with
    | none => exact .inr (.inl ⟨hd, rfl, by simp [inRule, checkDest_inMemory hd, destAddr, nextInput, hv]⟩)
    | some v => exact .inr (.inr ⟨hd, v, rfl, by simp [inRule, checkDest_inMemory hd, destAddr, nextInput, hv]⟩)
  · exact .inl ⟨hd, by simp [inRule, checkDest_outside hd, destAddr]⟩

/-- OUT: its operand, or a fault. -/
theorem outRule_cases (a : Operand) (s : State) :
    (∃ p, ¬ InMemory s.mem p ∧ outRule a s = .error (trapOutOfBounds p)) ∨
    (Readable s.mem a ∧
      outRule a s = .ok { Effects.moveTo (.sequential 2) with output := some (valueOf s.mem a) }) := by
  rcases resolve_cases s.mem a with ⟨ha, r⟩ | ⟨p, -, hp, r⟩
  · exact .inr ⟨ha, by simp [outRule, r]⟩
  · exact .inl ⟨p, hp, by simp [outRule, r]⟩

/-- The jumps: the selected next `IP`, or a fault. -/
theorem jumpRule_cases (taken : Word → Bool) (c g : Operand) (s : State) :
    (∃ p, ¬ InMemory s.mem p ∧ jumpRule taken c g s = .error (trapOutOfBounds p)) ∨
    (Readable s.mem c ∧ Readable s.mem g ∧ jumpRule taken c g s =
      .ok (.moveTo (if taken (valueOf s.mem c) then .target (valueOf s.mem g) else .sequential 3))) := by
  rcases resolve2_cases s.mem c g with ⟨hc, hg, r⟩ | ⟨p, hp, r⟩
  · exact .inr ⟨hc, hg, by simp [jumpRule, r]⟩
  · exact .inl ⟨p, hp, by simp [jumpRule, r]⟩

/-! ## The step -/

theorem limitReached_iff (s : State) : s.limitReached = true ↔ ¬ UnderLimit s := by
  unfold State.limitReached UnderLimit
  cases s.stepLimit <;> simp

/-- A step with a next state: the limit fault, a fault of the fetch or the decoder, or the execution of the fetched
instruction. -/
theorem step_next {s t : State} (h : step s = .next t) :
    s.run = .running ∧
      ((¬ UnderLimit s ∧ t = s.raise (trapPlain .stepLimitExceeded) none) ∨
        (UnderLimit s ∧ ∃ tr w, fetchInstr s = .error (tr, w) ∧ t = s.raise tr w) ∨
        (UnderLimit s ∧ ∃ i, fetchInstr s = .ok i ∧ exec i s = .next t)) := by
  unfold step cycle at h
  cases hr : s.run with
  | halted => simp [hr] at h
  | faulted => simp [hr] at h
  | running =>
    refine ⟨rfl, ?_⟩
    simp only [hr, runningCycle] at h
    by_cases hl : s.limitReached = true
    · rw [if_pos hl] at h
      exact .inl ⟨(limitReached_iff s).mp hl, (Host.Outcome.next.inj h).symm⟩
    · have under : UnderLimit s := not_not.mp fun hn => hl ((limitReached_iff s).mpr hn)
      rw [if_neg hl] at h
      cases hf : fetchInstr s with
      | error e =>
        obtain ⟨tr, w⟩ := e
        simp only [hf, Host.Outcome.next.injEq] at h
        exact .inr (.inl ⟨under, tr, w, rfl, h.symm⟩)
      | ok i => exact .inr (.inr ⟨under, i, rfl, by simpa only [hf] using h⟩)

/-- A step of a running block below its limit, once the fetch has answered. -/
theorem step_of_fetchInstr {s : State} (running : s.run = .running) (under : UnderLimit s) :
    step s = match fetchInstr s with
      | .error (t, w) => .next (s.raise t w)
      | .ok i => exec i s := by
  have hl : ¬ s.limitReached = true := fun h => (limitReached_iff s).mp h under
  cases hf : fetchInstr s <;> simp only [step, cycle, running, runningCycle, if_neg hl, hf]

/-- The fetch of an instruction: the word, its decoding and its parameters, or the fault of the first that fails. -/
theorem fetchInstr_cases (s : State) :
    (∃ t, fetch s.mem s.ip = .error t ∧ fetchInstr s = .error (t, none)) ∨
    (∃ w e, fetch s.mem s.ip = .ok w ∧ decodeHead w = .error e ∧ fetchInstr s = .error (trapOfDecode e, some w)) ∨
    (∃ w h t, fetch s.mem s.ip = .ok w ∧ decodeHead w = .ok h ∧
      fetchParams s.mem (s.ip + 1) h.op.params = .error t ∧ fetchInstr s = .error (t, some w)) ∨
    (∃ w h ps, fetch s.mem s.ip = .ok w ∧ decodeHead w = .ok h ∧
      fetchParams s.mem (s.ip + 1) h.op.params = .ok ps ∧ fetchInstr s = .ok (h.assemble ps)) := by
  cases hf : fetch s.mem s.ip with
  | error t => exact .inl ⟨t, rfl, by simp [fetchInstr, hf]⟩
  | ok w =>
    cases hd : decodeHead w with
    | error e => exact .inr (.inl ⟨w, e, rfl, hd, by simp [fetchInstr, hf, hd]⟩)
    | ok h =>
      cases hp : fetchParams s.mem (s.ip + 1) h.op.params with
      | error t => exact .inr (.inr (.inl ⟨w, h, t, rfl, hd, hp, by simp only [fetchInstr, hf, hd, hp]⟩))
      | ok ps => exact .inr (.inr (.inr ⟨w, h, ps, rfl, hd, hp, by simp only [fetchInstr, hf, hd, hp]⟩))

end Sys2Proof.Machine
end

