-- ==== Sys2Proof/Laws/Fetch.lean ====
section
/-! SUPPORT. The parameter fetch inside and past the end of memory, and which faults the fetch, the decoder and the rules
can raise. -/

namespace Sys2Proof.Machine

/-- What a cell write can answer (R53). -/
theorem memWrite_eq (m : Memory) (a v : Word) :
    memWrite m a v = if InMemory m a then .ok (m.write a.toNat v) else .error (trapOutOfBounds a) := by
  by_cases h : InMemory m a
  · rw [if_pos h, memWrite, checkDest_inMemory h]
  · rw [if_neg h, memWrite, checkDest_outside h]

/-- Advancing by an instruction's length from inside memory does not wrap. -/
theorem toInt_add_small {m : Memory} (short : m.len ≤ Config.memLenMax) {a : Word} (h : InMemory m a) {n : Nat}
    (small : n ≤ 4) : (a + BitVec.ofNat 64 n).toInt = a.toInt + n := by
  obtain ⟨lo, hi⟩ := h
  simp only [Config.memLenMax] at short
  have pos := toNat_of_nonneg lo
  have sum : (a + BitVec.ofNat 64 n).toNat = a.toNat + n := by
    rw [BitVec.toNat_add, BitVec.toNat_ofNat]
    omega
  rw [BitVec.toInt_eq_toNat_of_lt (by omega)]
  omega

theorem cellsAt_succ (m : Memory) (a n : Nat) : cellsAt m a (n + 1) = m.read a :: cellsAt m (a + 1) n := by
  simp [cellsAt, List.range_succ_eq_map, Function.comp_def, Nat.add_assoc, Nat.add_comm 1]

/-- Parameters inside memory are its cells. -/
theorem fetchParams_inside {m : Memory} (short : m.len ≤ Config.memLenMax) (n : Nat) (a : Word) (lo : 0 ≤ a.toInt)
    (hi : a.toInt + n ≤ m.len) : fetchParams m a n = .ok (cellsAt m a.toNat n) := by
  induction n generalizing a with
  | zero => simp [fetchParams, cellsAt]
  | succ n ih =>
    have inside : InMemory m a := ⟨lo, by omega⟩
    have first := (fetch_ok_iff m a _).mpr ⟨inside, rfl⟩
    have next : (a + 1).toInt = a.toInt + 1 := toInt_add_small short inside (n := 1) (by omega)
    have here := toNat_of_nonneg lo
    have there := toNat_of_nonneg (w := a + 1) (by omega)
    have addr : (a + 1).toNat = a.toNat + 1 := by omega
    simp only [fetchParams, first, ih (a + 1) (by omega) (by push_cast at hi; omega), addr, cellsAt_succ]

/-- Parameters that reach past the end fault at the first cell outside. -/
theorem fetchParams_pastEnd {m : Memory} (short : m.len ≤ Config.memLenMax) (n : Nat) (a : Word) (lo : 0 ≤ a.toInt)
    (start : a.toInt ≤ m.len) (past : m.len < a.toInt + n) :
    fetchParams m a n = .error (trapMalformed (Word.ofInt m.len)) := by
  induction n generalizing a with
  | zero => push_cast at past; omega
  | succ n ih =>
    by_cases inside : a.toInt < m.len
    · have first := (fetch_ok_iff m a _).mpr ⟨⟨lo, inside⟩, rfl⟩
      have next : (a + 1).toInt = a.toInt + 1 := toInt_add_small short ⟨lo, inside⟩ (n := 1) (by omega)
      simp only [fetchParams, first, ih (a + 1) (by omega) (by omega) (by push_cast at past; omega)]
    · have atEnd : (m.len : Int) = a.toInt := by omega
      have first : fetch m a = .error (trapMalformed a) := by
        simp only [fetch]
        rw [if_neg (by omega), if_pos (by omega)]
      simp [fetchParams, first, atEnd]

/-- A parameter fetch faults with OutOfBounds or MalformedProgram. -/
theorem fetchParams_error {m : Memory} {a : Word} {n : Nat} {t : Trap} (h : fetchParams m a n = .error t) :
    ∃ b, t = trapOutOfBounds b ∨ t = trapMalformed b := by
  induction n generalizing a with
  | zero => cases h
  | succ n ih =>
    simp only [fetchParams] at h
    split at h
    · rename_i hf
      cases h
      exact ⟨a, fetch_error hf⟩
    · split at h
      · rename_i hf
        cases h
        exact ih hf
      · cases h

/-- A word the decoder rejects is InvalidOpcode or InvalidMode. -/
theorem decodeHead_error {w : Word} {e : DecodeError} (h : decodeHead w = .error e) :
    e = .invalidMode ∨ ∃ v, e = .invalidOpcode v := by
  unfold decodeHead at h
  split at h
  · cases h; exact .inr ⟨_, rfl⟩
  · split at h
    · cases h; exact .inr ⟨_, rfl⟩
    · split at h
      · cases h; exact .inl rfl
      · split at h
        · cases h
        · cases h; exact .inl rfl

/-- A fetched instruction is that of the word at `IP`. -/
theorem fetchInstr_word {s : State} {i : Instr} (h : fetchInstr s = .ok i) :
    InMemory s.mem s.ip ∧ i.word = s.mem.read s.ip.toNat := by
  rcases fetchInstr_cases s with ⟨_, _, h'⟩ | ⟨_, _, _, _, h'⟩ | ⟨_, _, _, _, _, _, h'⟩ | ⟨w, hd, ps, hf, hh, _, h'⟩ <;>
    (rw [h'] at h; cases h)
  obtain ⟨inside, rfl⟩ := (fetch_ok_iff _ _ _).mp hf
  exact ⟨inside, assemble_word hh ps⟩

/-- The faults an instruction rule can raise: OutOfBounds, Overflow, InputExhausted. -/
theorem ruleOf_error {i : Instr} {s : State} {t : Trap} (h : ruleOf i s = .error t) :
    (∃ p, t = trapOutOfBounds p) ∨ t = trapPlain .overflow ∨ t = trapPlain .inputExhausted := by
  have alu : ∀ f a b d, (∀ x y t, f x y = .error t → t = trapPlain .overflow) → aluRule f a b d s = .error t →
      (∃ p, t = trapOutOfBounds p) ∨ t = trapPlain .overflow ∨ t = trapPlain .inputExhausted := by
    intro f a b d hf h
    rcases aluRule_cases f a b d s with ⟨p, _, h'⟩ | ⟨_, _, _, ⟨_, he, h'⟩ | ⟨_, _, h'⟩⟩ <;> (rw [h'] at h; cases h)
    · exact .inl ⟨_, rfl⟩
    · exact .inr (.inl (hf _ _ _ he))
  have jump : ∀ f c g, jumpRule f c g s = .error t →
      (∃ p, t = trapOutOfBounds p) ∨ t = trapPlain .overflow ∨ t = trapPlain .inputExhausted := by
    intro f c g h
    rcases jumpRule_cases f c g s with ⟨p, _, h'⟩ | ⟨_, _, h'⟩ <;> (rw [h'] at h; cases h)
    exact .inl ⟨_, rfl⟩
  have overflow : ∀ r t, narrow r = .error t → t = trapPlain .overflow := by
    intro r t h
    rw [narrow_eq] at h
    split at h <;> cases h
    rfl
  cases i with
  | add a b d => exact alu _ a b d (fun _ _ _ => overflow _ _) h
  | mul a b d => exact alu _ a b d (fun _ _ _ => overflow _ _) h
  | lt a b d => exact alu (fun x y => .ok (lessThan x y)) a b d (fun _ _ _ he => by cases he) h
  | eq a b d => exact alu (fun x y => .ok (equals x y)) a b d (fun _ _ _ he => by cases he) h
  | inp d =>
    simp only [ruleOf] at h
    rcases inRule_cases d s with ⟨_, h'⟩ | ⟨_, _, h'⟩ | ⟨_, _, _, h'⟩ <;> (rw [h'] at h; cases h)
    · exact .inl ⟨_, rfl⟩
    · exact .inr (.inr rfl)
  | out a =>
    simp only [ruleOf] at h
    rcases outRule_cases a s with ⟨p, _, h'⟩ | ⟨_, h'⟩ <;> (rw [h'] at h; cases h)
    exact .inl ⟨_, rfl⟩
  | jt c g => exact jump _ c g h
  | jf c g => exact jump _ c g h
  | hlt => cases h

end Sys2Proof.Machine
end

