-- ==== Sys2Proof/Laws/PerInstr.lean ====
section
/-! SUPPORT. Facts about every instruction as syntax, one lemma per constructor. -/

namespace Sys2Proof.Laws.WordLegal

/-- The instruction passes the checks of spec/30_encoding.md rule R74, the word the encoder gives it has its fields, and it
takes as many cells as rules R70 and R75 say. -/
def Statement (i : Instr) : Prop :=
  i.wf = true ∧ fieldsOf i.word.toNat = i.fields ∧ (encode i).length = paramCount i.fields.op + 1

/-- The fields of a head's number are its opcode and mode digits. -/
theorem fieldsOf_word (i : Instr) :
    fieldsOf i.word.toNat = ⟨i.head.op.code, i.head.m1.digit, i.head.m2.digit, i.head.m3.digit, 0⟩ := by
  have num : i.word.toNat = i.head.number := (decodeHead_ok (decodeHead_word i)).2.1
  have c := code_le i.head.op
  have d1 := i.head.m1.digit_le
  have d2 := i.head.m2.digit_le
  have d3 := i.head.m3.digit_le
  rw [num]
  simp only [fieldsOf, Head.number, Fields.mk.injEq]
  omega

theorem add (a b : Operand) (d : Dest) : Statement (.add a b d) := by
  refine ⟨?_, (fieldsOf_word _).trans ?_, rfl⟩ <;> rcases d with ⟨_ | _, _⟩ <;> cases a <;> cases b <;> rfl

theorem mul (a b : Operand) (d : Dest) : Statement (.mul a b d) := by
  refine ⟨?_, (fieldsOf_word _).trans ?_, rfl⟩ <;> rcases d with ⟨_ | _, _⟩ <;> cases a <;> cases b <;> rfl

theorem inp (d : Dest) : Statement (.inp d) := by
  refine ⟨?_, (fieldsOf_word _).trans ?_, rfl⟩ <;> rcases d with ⟨_ | _, _⟩ <;> rfl

theorem out (a : Operand) : Statement (.out a) := by
  refine ⟨?_, (fieldsOf_word _).trans ?_, rfl⟩ <;> cases a <;> rfl

theorem jt (c t : Operand) : Statement (.jt c t) := by
  refine ⟨?_, (fieldsOf_word _).trans ?_, rfl⟩ <;> cases c <;> cases t <;> rfl

theorem jf (c t : Operand) : Statement (.jf c t) := by
  refine ⟨?_, (fieldsOf_word _).trans ?_, rfl⟩ <;> cases c <;> cases t <;> rfl

theorem lt (a b : Operand) (d : Dest) : Statement (.lt a b d) := by
  refine ⟨?_, (fieldsOf_word _).trans ?_, rfl⟩ <;> rcases d with ⟨_ | _, _⟩ <;> cases a <;> cases b <;> rfl

theorem eq (a b : Operand) (d : Dest) : Statement (.eq a b d) := by
  refine ⟨?_, (fieldsOf_word _).trans ?_, rfl⟩ <;> rcases d with ⟨_ | _, _⟩ <;> cases a <;> cases b <;> rfl

theorem hlt : Statement .hlt := ⟨rfl, fieldsOf_word _, rfl⟩

end Sys2Proof.Laws.WordLegal
end

