-- ==== Sys2Proof/Laws/Search.lean ====
section
/-! SUPPORT. The parameter search: which pairs are scanned and in which order, and everything the scan can answer. -/

namespace Sys2Proof.Machine

/-- The scan covers the pairs from 0 to 99 (R229). -/
theorem mem_searchPairs (noun verb : Nat) : (noun, verb) ∈ searchPairs ↔ noun ≤ 99 ∧ verb ≤ 99 := by
  simp only [searchPairs, List.mem_flatMap, List.mem_map, List.mem_range, Prod.mk.injEq]
  exact ⟨by rintro ⟨a, ha, b, hb, rfl, rfl⟩; omega, fun h => ⟨noun, by omega, verb, by omega, rfl, rfl⟩⟩

/-- Row-major order is the order of the answers (R229). -/
theorem searchPairs_sorted : searchPairs.Pairwise (fun p q => searchAnswer p.1 p.2 < searchAnswer q.1 q.2) := by
  rw [searchPairs, List.pairwise_flatMap]
  constructor
  · intro a _
    rw [List.pairwise_map]
    exact List.pairwise_lt_range.imp (by simp only [searchAnswer]; omega)
  · refine List.pairwise_lt_range.imp fun {a b} h x hx y hy => ?_
    simp only [List.mem_map, List.mem_range] at hx hy
    obtain ⟨i, hi, rfl⟩ := hx
    obtain ⟨j, hj, rfl⟩ := hy
    simp only [searchAnswer]
    omega

/-- Where a pair stands in the scan: after exactly the pairs with a smaller answer. -/
theorem searchPairs_split {noun verb : Nat} (hn : noun ≤ 99) (hv : verb ≤ 99) :
    ∃ pre post, searchPairs = pre ++ (noun, verb) :: post ∧
      ∀ n v, (n, v) ∈ pre → n ≤ 99 ∧ v ≤ 99 ∧ searchAnswer n v < searchAnswer noun verb := by
  obtain ⟨pre, post, hl⟩ := List.append_of_mem ((mem_searchPairs noun verb).mpr ⟨hn, hv⟩)
  refine ⟨pre, post, hl, fun n v h => ?_⟩
  have sorted := searchPairs_sorted
  rw [hl] at sorted
  have mem := (mem_searchPairs n v).mp (by rw [hl]; exact List.mem_append_left _ h)
  exact ⟨mem.1, mem.2, (List.pairwise_append.mp sorted).2.2 _ h _ List.mem_cons_self⟩

/-- In the scan, a pair with a smaller answer stands before the pair. -/
theorem searchPairs_before {pre post : List (Nat × Nat)} {noun verb n v : Nat}
    (hl : searchPairs = pre ++ (noun, verb) :: post) (hn : n ≤ 99) (hv : v ≤ 99)
    (lt : searchAnswer n v < searchAnswer noun verb) : (n, v) ∈ pre := by
  have sorted := searchPairs_sorted
  have mem := (mem_searchPairs n v).mpr ⟨hn, hv⟩
  rw [hl] at sorted mem
  rcases List.mem_append.mp mem with h | h
  · exact h
  · rcases List.mem_cons.mp h with h | h
    · cases h; omega
    · have := (List.pairwise_cons.mp (List.pairwise_append.mp sorted).2.1).1 _ h
      simp only at this; omega

variable {target : Word} {run : Nat → Nat → Trial}

/-- The scan passes over the pairs that halt with another value (R230). -/
theorem searchList_append {pre : List (Nat × Nat)} (miss : ∀ q ∈ pre, ∃ d, run q.1 q.2 = .halted d ∧ d ≠ some target)
    (rest : List (Nat × Nat)) : searchList target run (pre ++ rest) = searchList target run rest := by
  induction pre with
  | nil => rfl
  | cons q pre ih =>
    obtain ⟨d, hd, hne⟩ := miss q List.mem_cons_self
    simp only [List.cons_append, searchList, hd, hne, if_false]
    exact ih fun q hq => miss q (List.mem_cons_of_mem _ hq)

/-- Everything the scan can answer: every pair misses, or the first that does not decides. -/
theorem searchList_cases (target : Word) (run : Nat → Nat → Trial) (pairs : List (Nat × Nat)) :
    (searchList target run pairs = .notFound ∧ ∀ q ∈ pairs, ∃ d, run q.1 q.2 = .halted d ∧ d ≠ some target) ∨
    ∃ pre noun verb post, pairs = pre ++ (noun, verb) :: post ∧
      (∀ q ∈ pre, ∃ d, run q.1 q.2 = .halted d ∧ d ≠ some target) ∧
      ((run noun verb = .halted (some target) ∧ searchList target run pairs = .found noun verb) ∨
       (∃ r, run noun verb = .faulted r ∧ searchList target run pairs = .aborted r) ∨
       (run noun verb = .unfinished ∧ searchList target run pairs = .unfinished noun verb) ∨
       (run noun verb = .notInjected ∧ searchList target run pairs = .notInjected)) := by
  induction pairs with
  | nil => exact .inl ⟨rfl, fun _ h => absurd h List.not_mem_nil⟩
  | cons q rest ih =>
    obtain ⟨a, b⟩ := q
    cases hr : run a b with
    | faulted r => exact .inr ⟨[], a, b, rest, rfl, by simp, .inr (.inl ⟨r, hr, by simp only [searchList, hr]⟩)⟩
    | unfinished => exact .inr ⟨[], a, b, rest, rfl, by simp, .inr (.inr (.inl ⟨hr, by simp only [searchList, hr]⟩))⟩
    | notInjected => exact .inr ⟨[], a, b, rest, rfl, by simp, .inr (.inr (.inr ⟨hr, by simp only [searchList, hr]⟩))⟩
    | halted d =>
      by_cases hd : d = some target
      · subst hd
        exact .inr ⟨[], a, b, rest, rfl, by simp, .inl ⟨hr, by simp only [searchList, hr, if_true]⟩⟩
      · have head : ∃ d, run a b = .halted d ∧ d ≠ some target := ⟨d, hr, hd⟩
        have pass : searchList target run ((a, b) :: rest) = searchList target run rest := by
          simp only [searchList, hr, hd, if_false]
        rw [pass]
        rcases ih with ⟨h, miss⟩ | ⟨pre, n, v, post, rfl, miss, h⟩
        · exact .inl ⟨h, List.forall_mem_cons.mpr ⟨head, miss⟩⟩
        · exact .inr ⟨(a, b) :: pre, n, v, post, rfl, List.forall_mem_cons.mpr ⟨head, miss⟩, h⟩

end Sys2Proof.Machine
end

