-- ==== Sys2Proof/Laws/WellFormed.lean ====
section
/-! SUPPORT. The checks of spec/30_encoding.md rule R74 as propositions. -/

namespace Sys2Proof

@[simp] theorem wordNonNegative_iff (w : Word) : wordNonNegative w = true ↔ 0 ≤ w.toInt := by simp [wordNonNegative]

theorem opcodeListed_iff (f : Fields) : f.opcodeListed = true ↔ f.op ∈ [1, 2, 3, 4, 5, 6, 7, 8, 99] := by
  simp [Fields.opcodeListed]

theorem usedModesLegal_iff (f : Fields) :
    f.usedModesLegal = true ↔ (1 ≤ paramCount f.op → f.m1 ≤ 1) ∧ (2 ≤ paramCount f.op → f.m2 ≤ 1) ∧
      (3 ≤ paramCount f.op → f.m3 ≤ 1) := by
  simp only [Fields.usedModesLegal, Bool.and_eq_true, decide_eq_true_eq, and_assoc]

theorem unusedModesZero_iff (f : Fields) :
    f.unusedModesZero = true ↔ (paramCount f.op < 1 → f.m1 = 0) ∧ (paramCount f.op < 2 → f.m2 = 0) ∧
      (paramCount f.op < 3 → f.m3 = 0) := by
  simp only [Fields.unusedModesZero, Bool.and_eq_true, decide_eq_true_eq, and_assoc]

theorem highDigitsZero_iff (f : Fields) : f.highDigitsZero = true ↔ f.hi = 0 := by simp [Fields.highDigitsZero]

/-- The five conditions of R74 together. -/
theorem wordLegal_iff (w : Word) :
    wordLegal w = true ↔ 0 ≤ w.toInt ∧ (fieldsOf w.toNat).opcodeListed = true ∧
      (fieldsOf w.toNat).usedModesLegal = true ∧ (fieldsOf w.toNat).unusedModesZero = true ∧
      (fieldsOf w.toNat).highDigitsZero = true := by
  simp only [wordLegal, Fields.wf, Bool.and_eq_true, wordNonNegative_iff, and_assoc]

end Sys2Proof
end

