-- ==== Sys2Proof/Tests/Slice0.lean ====
section
/-! SUPPORT. Small tests, each expected value from the spec: the encodings of 30_encoding.md, the vectors of
95_test_vectors.md (their ids in the comments), and a witness for the hypotheses of every statement that has some. -/

namespace Sys2Proof.Tests

open Sys2Proof Sys2Proof.Machine

/-! ## Well-formedness: each check of R74 refuses a term -/

theorem test_wf_refuses_negative : wordNonNegative (-99) = false ∧ wordLegal (-99) = false := by decide
theorem test_wf_refuses_opcode : (fieldsOf 109).opcodeListed = false ∧ wordLegal 109 = false := by decide
theorem test_wf_refuses_used_mode : (fieldsOf 203).usedModesLegal = false ∧ wordLegal 203 = false := by decide
theorem test_wf_refuses_unused_mode : (fieldsOf 1003).unusedModesZero = false ∧ wordLegal 1003 = false := by decide
theorem test_wf_refuses_high_digit : (fieldsOf 100001).highDigitsZero = false ∧ wordLegal 100001 = false := by decide
theorem test_wf_accepts_destination_mode : wordLegal 11101 = true := by decide

/-! ## Decoding: words written out from R71, R75, R85 -/

/-- What a list of cells decodes to, if it decodes. -/
def decoded (cells : List Word) : Option (Instr × List Word) :=
  match decode cells with
  | .ok r => some r
  | .error _ => none

/-- Why a list of cells does not decode, if it does not. -/
def rejected (cells : List Word) : Option DecodeError :=
  match decode cells with
  | .ok _ => none
  | .error e => some e

-- op 01, m1 = 1, m2 = 1, m3 = 0 (R85's first example)
theorem test_decode_add :
    decoded [1101, 4, 3, 0] = some (.add (.immediate 4) (.immediate 3) ⟨.positional, 0⟩, []) := by decide
-- V2: op 01, all mode digits 1; the destination digit is kept and ignored
theorem test_decode_add_dest_mode :
    decoded [11101, 2, 3, 0] = some (.add (.immediate 2) (.immediate 3) ⟨.immediate, 0⟩, []) := by decide
-- V1: op 02, m1 = 0, m2 = 1
theorem test_decode_mul :
    decoded [1002, 4, 3, 4] = some (.mul (.positional 4) (.immediate 3) ⟨.positional, 4⟩, []) := by decide
theorem test_decode_in : decoded [103, 0, 99] = some (.inp ⟨.immediate, 0⟩, [99]) := by decide
theorem test_decode_out : decoded [104, -7] = some (.out (.immediate (-7)), []) := by decide
-- R85's second example
theorem test_decode_jt : decoded [1005, 7, 0] = some (.jt (.positional 7) (.immediate 0), []) := by decide
theorem test_decode_jf : decoded [106, 0, 8] = some (.jf (.immediate 0) (.positional 8), []) := by decide
theorem test_decode_lt :
    decoded [10107, 3, 5, 0] = some (.lt (.immediate 3) (.positional 5) ⟨.immediate, 0⟩, []) := by decide
theorem test_decode_eq :
    decoded [8, 5, 6, 0] = some (.eq (.positional 5) (.positional 6) ⟨.positional, 0⟩, []) := by decide
-- V3
theorem test_decode_hlt : decoded [99, 1] = some (.hlt, [1]) := by decide
-- V4, V5, V6, V7, V8, V13
theorem test_decode_invalid_mode :
    [199, 10099, 203, 1003, 100001, 2299].map (fun w => rejected [w]) = List.replicate 6 (some .invalidMode) := by decide
-- V9, V10, V11, V12
theorem test_decode_invalid_opcode :
    [0, 42, 109, -99].map (fun w => rejected [w]) =
      [some (.invalidOpcode 0), some (.invalidOpcode 42), some (.invalidOpcode 9), some (.invalidOpcode (-99))] := by decide
theorem test_decode_short : rejected [1, 0, 0] = some .missingParameter ∧ rejected [] = some .noWord := by decide
theorem test_encode : encode (.jt (.positional 7) (.immediate 0)) = [1005, 7, 0] := by decide
theorem test_table_word :
    decodeTableWord 8 99 = some .hlt ∧
    decodeTableWord 64 1 = some (.add (.positional 0) (.positional 0) ⟨.positional, 0⟩) ∧
    decodeTableWord 128 (1 * 2 ^ 64 + 104) = some (.out (.immediate 1)) := by decide

/-! ## One step -/

/-- The state after one step, if there is one. -/
def after (s : State) : Option State :=
  match step s with
  | .next t => some t
  | .fault _ => none
  | .refused _ => none

/-- Memory, `IP` and `STEPS` after the first step of an image. -/
def first (image inSeq : List Word) : Option (List Word × Int × Nat) :=
  (after (boot image inSeq none)).map fun t => (t.mem.toImage, t.ip.toInt, t.steps)

/-- The fault record after the first step of an image, and `STEPS`. -/
def firstFault (image : List Word) : Option (Option FaultRecord × Nat) :=
  (after (boot image [] none)).map fun t => (t.fault, t.steps)

-- A3, and A10 with the destination digit 1
theorem test_add : first [1101, -5, 3, 0, 99] [] = some ([-2, -5, 3, 0, 99], 4, 1) := by decide
-- A4: CELL_MAX + 1
theorem test_add_overflow :
    firstFault [1101, 9223372036854775807, 1, 0, 99] = some (some ⟨.overflow, 0, none, some 1101, none⟩, 0) := by decide
-- A7: CELL_MIN * 1 does not overflow
theorem test_mul :
    first [1102, -9223372036854775808, 1, 0, 99] [] =
      some ([-9223372036854775808, -9223372036854775808, 1, 0, 99], 4, 1) := by decide
-- A6: CELL_MIN * -1 is 2^63
theorem test_mul_overflow :
    firstFault [1102, -9223372036854775808, -1, 0, 99] = some (some ⟨.overflow, 0, none, some 1102, none⟩, 0) := by decide
-- I4: the destination is the instruction's own parameter
theorem test_in : first [3, 1, 99] [0] = some ([3, 0, 99], 2, 1) := by decide
-- I2
theorem test_in_exhausted :
    firstFault [3, 0, 99] = some (some ⟨.inputExhausted, 0, none, some 3, none⟩, 0) := by decide
-- I7
theorem test_out :
    (after (boot [4, 2, 99] [] none)).map (fun t => (t.diag, t.outSeq, t.ip)) = some (some 99, [99], 2) := by decide
-- I8
theorem test_out_outside :
    firstFault [4, 3, 99] = some (some ⟨.outOfBounds, 0, some 3, some 4, none⟩, 0) := by decide
-- J3: a negative condition is not zero; J6: a negative target is accepted
theorem test_jt : first [1105, -1, -1] [] = some ([1105, -1, -1], -1, 1) := by decide
-- J12
theorem test_jt_not_taken : first [1105, 0, 99, 99] [] = some ([1105, 0, 99, 99], 3, 1) := by decide
-- J4
theorem test_jf : first [1106, 0, 3, 99] [] = some ([1106, 0, 3, 99], 3, 1) := by decide
-- J5
theorem test_jf_not_taken : first [1106, -1, 9, 99] [] = some ([1106, -1, 9, 99], 3, 1) := by decide
-- C5: signed
theorem test_lt :
    first [1107, -9223372036854775808, 9223372036854775807, 0, 99] [] =
      some ([1, -9223372036854775808, 9223372036854775807, 0, 99], 4, 1) := by decide
-- C3: strict
theorem test_lt_strict : first [1107, 5, 5, 0, 99] [] = some ([0, 5, 5, 0, 99], 4, 1) := by decide
-- C8
theorem test_eq : first [8, 5, 6, 0, 99, 7, 7] [] = some ([1, 5, 6, 0, 99, 7, 7], 4, 1) := by decide
-- C9
theorem test_eq_immediate : first [1108, 5, 6, 0, 99, 7, 7] [] = some ([0, 5, 6, 0, 99, 7, 7], 4, 1) := by decide
-- T1
theorem test_hlt :
    (after (boot [99] [] none)).map (fun t => (t.run, t.ip, t.steps, diagnostic t)) =
      some (.halted, 0, 1, some 99) := by decide
-- R171: no step after Halt
theorem test_hlt_no_step : (after (boot [99] [] none)).bind after = none := by decide

/-! ## Faults of the step and their order -/

-- A14: the destination check comes before Overflow
theorem test_order_destination_first :
    firstFault [1101, 9223372036854775807, 1, 9, 99] = some (some ⟨.outOfBounds, 0, some 9, some 1101, none⟩, 0) := by decide
-- I3: the destination check comes before the input check
theorem test_order_destination_before_input :
    firstFault [3, 9, 99] = some (some ⟨.outOfBounds, 0, some 9, some 3, none⟩, 0) := by decide
-- V14
theorem test_invalid_opcode :
    firstFault [42] = some (some ⟨.invalidOpcode, 0, none, some 42, some 42⟩, 0) := by decide
-- T3
theorem test_invalid_mode :
    firstFault [199] = some (some ⟨.invalidMode, 0, none, some 199, none⟩, 0) := by decide
-- V15
theorem test_parameter_past_end :
    firstFault [1, 0, 0] = some (some ⟨.malformedProgram, 0, some 3, some 1, none⟩, 0) := by decide
-- V17: the state right after reset with no image
theorem test_empty_memory :
    (after core.reset).map (fun t => (t.run, t.fault)) =
      some (.faulted, some ⟨.malformedProgram, 0, some 0, none, none⟩) := by decide
-- V20: the limit check precedes the fetch
theorem test_limit_zero :
    (after (boot [99] [] (some 0))).map (fun t => (t.fault, t.steps)) =
      some (some ⟨.stepLimitExceeded, 0, none, none, none⟩, 0) := by decide
-- J6, second step
theorem test_negative_ip :
    (after { boot [1105, 1, -1] [] none with ip := -1 }).map (fun t => t.fault) =
      some (some ⟨.outOfBounds, -1, some (-1), none, none⟩) := by decide

/-! ## A table row's word as the first instruction after reset -/

theorem test_fetch_word :
    (after (State.reset.withFetchWord 64 99)).map (fun t => (t.run, t.steps)) = some (.halted, 1) ∧
    (after (State.reset.withFetchWord 64 8)).map (fun t => t.mem.toImage) = some [1, 0, 0, 0] := by decide

/-! ## Assembly, host operations, search -/

-- P1's listing assembles to P1's cells
theorem test_assemble_p1 :
    assembleText "0:  ADD 9, 10, 3  ; 1, 9, 10, 3\n4:  MUL 3, 11, 0\n8:  HLT\n9: .word 30\n10: .word 40\n11: .word 50".toList =
      some [1, 9, 10, 3, 2, 3, 11, 0, 99, 30, 40, 50] := by decide
theorem test_assemble_labels :
    assembleText "loop: JT x, #loop\nHLT\nx: .word -5".toList = some [1005, 4, 0, 99, -5] := by decide
theorem test_assemble_refuses_immediate_destination : assembleText "ADD #1, #2, #3".toList = none := by decide
theorem test_host_boot :
    hostActs [.load [1, 0, 0, 0, 99], .poke 1 12, .poke 2 2, .reset] (.beforeReset .empty) =
      some (.started (boot [1, 12, 2, 0, 99] [] none)) := by decide
theorem test_host_cannot_act_while_running :
    hostAct (.poke 0 1) (.started (boot [99] [] none)) = none ∧ observe (boot [99] [] none) = none := by decide
theorem test_search_order :
    searchPairs.take 3 = [(0, 0), (0, 1), (0, 2)] ∧
    searchList 7 (fun n v => .halted (some (BitVec.ofNat 64 (10 * n + v)))) [(0, 0), (0, 7), (0, 8)] = .found 0 7 := by decide

/-! ## Witnesses: for every statement with hypotheses, values that meet all of them -/

/-- A state about to run `ADD #4, #3, 0`. -/
def ready : State := boot [1101, 4, 3, 0, 99] [42] none

theorem witness_EncodeOfDecodeIsSame : decode [104, 7, 5] = .ok (.out (.immediate 7), [5]) := by rfl

theorem witness_DecoderAcceptsExactlyLegalWords :
    wordLegal 11108 = true ∧
    (wordNonNegative (-1) && (fieldsOf (-1 : Word).toNat).opcodeListed) = false ∧
    (wordNonNegative 98 && (fieldsOf 98).opcodeListed) = false ∧
    (wordNonNegative 100099 && (fieldsOf 100099).opcodeListed) = true ∧ wordLegal 100099 = false := by decide

theorem witness_FortyFiveLegalWords : ∀ h, decodeHead 100 ≠ .ok h := by
  intro h heq
  cases (show decodeHead 100 = .error (.invalidOpcode 0) from rfl).symm.trans heq

theorem witness_StepRunsDecodedInstruction :
    ready.run = .running ∧ UnderLimit ready ∧ ready.mem.len ≤ Config.memLenMax ∧
    0 ≤ ready.ip.toInt ∧ ready.ip.toInt + 5 ≤ ready.mem.len ∧
    decode (cellsAt ready.mem ready.ip.toNat 5) = .ok (.add (.immediate 4) (.immediate 3) ⟨.positional, 0⟩, [99]) :=
  ⟨rfl, by decide, by decide, by decide, by decide, rfl⟩

theorem witness_StepEnabledExactlyWhileRunning :
    ready.run = .running ∧ ({ ready with run := .halted } : State).run = .halted ∧
    ({ ready with run := .faulted } : State).run = .faulted := by decide

theorem witness_StepLimitCheckedFirst :
    ready.run = .running ∧ UnderLimit ready ∧ ¬ UnderLimit { ready with stepLimit := some 0 } ∧
    UnderLimit { ready with stepLimit := some 1 } ∧
    ∃ t, step (boot [42] [] none) = .next t ∧ t.run = .faulted :=
  ⟨rfl, by decide, by decide, by decide, _, rfl, rfl⟩

theorem witness_WordFetchOutsideMemoryFaults :
    ({ ready with ip := -1 } : State).run = .running ∧ UnderLimit { ready with ip := -1 } ∧
    ({ ready with ip := -1 } : State).ip.toInt < 0 ∧
    ({ ready with ip := 5 } : State).run = .running ∧ UnderLimit { ready with ip := 5 } ∧
    (({ ready with ip := 5 } : State).mem.len : Int) ≤ ({ ready with ip := 5 } : State).ip.toInt := by decide

theorem witness_IllegalWordFaults :
    (boot [-1] [] none).run = .running ∧ UnderLimit (boot [-1] [] none) ∧ InMemory (boot [-1] [] none).mem 0 ∧
    (boot [-1] [] none).mem.read 0 = -1 ∧ (-1 : Word).toInt < 0 ∧
    (0 : Int) ≤ (0 : Word).toInt ∧ (0 : Word).toInt % 100 ∉ ([1, 2, 3, 4, 5, 6, 7, 8, 99] : List Int) ∧
    (0 : Int) ≤ (100001 : Word).toInt ∧ (100001 : Word).toInt % 100 ∈ ([1, 2, 3, 4, 5, 6, 7, 8, 99] : List Int) ∧
    wordLegal 100001 = false := by decide

/-- Four cells: an ADD whose last parameter is the last cell. -/
def tight : State := boot [1101, 4, 3, 0] [] none

/-- Three cells: an ADD whose last parameter is just past the end. -/
def short : State := boot [1101, 4, 3] [] none

theorem witness_ParameterFetch :
    (tight.run = .running ∧ UnderLimit tight ∧ tight.mem.len ≤ Config.memLenMax ∧ InMemory tight.mem tight.ip ∧
      decodeHead (tight.mem.read tight.ip.toNat) = .ok ⟨.add, .immediate, .immediate, .positional⟩ ∧
      tight.ip.toInt + (3 : Nat) < tight.mem.len) ∧
    short.run = .running ∧ UnderLimit short ∧ short.mem.len ≤ Config.memLenMax ∧ InMemory short.mem short.ip ∧
      decodeHead (short.mem.read short.ip.toNat) = .ok ⟨.add, .immediate, .immediate, .positional⟩ ∧
      (short.mem.len : Int) ≤ short.ip.toInt + (3 : Nat) :=
  ⟨⟨rfl, by decide, by decide, by decide, rfl, by decide⟩, rfl, by decide, by decide, by decide, rfl, by decide⟩

theorem witness_AddWritesSum :
    Readable ready.mem (.positional 1) ∧ Readable ready.mem (.immediate 9223372036854775803) ∧ InMemory ready.mem 4 ∧
    InCellRange ((valueOf ready.mem (.positional 1)).toInt + (valueOf ready.mem (.immediate 9223372036854775803)).toInt) := by
  decide

theorem witness_MulWritesProduct :
    Readable ready.mem (.positional 1) ∧ Readable ready.mem (.immediate (-2305843009213693952)) ∧ InMemory ready.mem 0 ∧
    InCellRange ((valueOf ready.mem (.positional 1)).toInt * (valueOf ready.mem (.immediate (-2305843009213693952))).toInt) := by
  decide

theorem witness_LtWritesComparison :
    Readable ready.mem (.positional 4) ∧ Readable ready.mem (.immediate (-1)) ∧ InMemory ready.mem 4 := by decide

theorem witness_EqWritesComparison :
    Readable ready.mem (.positional 0) ∧ Readable ready.mem (.immediate 1101) ∧ InMemory ready.mem 0 := by decide

theorem witness_InWritesNextInput : InMemory ready.mem 4 ∧ ready.inSeq[ready.inPtr]? = some 42 := by decide

theorem witness_OutRecordsOperand : Readable ready.mem (.positional 4) := by decide

theorem witness_JtSelectsNextIp :
    Readable ready.mem (.positional 3) ∧ Readable ready.mem (.immediate (-1)) ∧
    (valueOf ready.mem (.positional 3)).toInt = 0 ∧ (valueOf ready.mem (.positional 4)).toInt ≠ 0 := by decide

theorem witness_JfSelectsNextIp :
    Readable ready.mem (.positional 3) ∧ Readable ready.mem (.positional 0) ∧
    (valueOf ready.mem (.positional 3)).toInt = 0 := by decide

theorem witness_OperandOutsideMemoryFaults :
    ¬ InMemory ready.mem 5 ∧ ¬ InMemory ready.mem (-1) ∧ Readable ready.mem (.positional 4) := by decide

theorem witness_DestinationOutsideMemoryFaults :
    ¬ InMemory ready.mem 5 ∧ ¬ InMemory ready.mem (-1) ∧ Readable ready.mem (.positional 4) ∧
    Readable ready.mem (.immediate 1) := by decide

theorem witness_OverflowFaults :
    Readable ready.mem (.immediate (-9223372036854775808)) ∧ Readable ready.mem (.immediate (-1)) ∧ InMemory ready.mem 0 ∧
    ¬ InCellRange ((-9223372036854775808 : Word).toInt + (-1 : Word).toInt) ∧
    ¬ InCellRange ((-9223372036854775808 : Word).toInt * (-1 : Word).toInt) := by decide

theorem witness_InputExhaustedFaults :
    InMemory ready.mem 0 ∧ ({ ready with inPtr := 1 } : State).inPtr = ready.inSeq.length := by decide

theorem witness_FaultEntryIsPrecise : ∃ t, step (boot [1, -1, 0, 0] [] none) = .next t ∧ t.run = .faulted :=
  ⟨_, rfl, rfl⟩

theorem witness_FaultRecordHoldsFetchedWord :
    ∃ t, step (boot [1, -1, 0, 0] [] none) = .next t ∧ t.run = .faulted ∧
      ∃ r, t.fault = some r ∧ r.word = some 1 :=
  ⟨_, rfl, rfl, _, rfl, rfl⟩

theorem witness_AluFrame :
    ∀ i ∈ [Instr.add (.immediate 1) (.immediate 2) ⟨.positional, 0⟩, .mul (.immediate 1) (.immediate 2) ⟨.positional, 0⟩,
      .lt (.immediate 1) (.immediate 2) ⟨.positional, 0⟩, .eq (.immediate 1) (.immediate 2) ⟨.positional, 0⟩],
      ∃ t, exec i ready = .next t := by
  simp only [List.mem_cons, List.not_mem_nil, or_false, forall_eq_or_imp, forall_eq]
  exact ⟨⟨_, rfl⟩, ⟨_, rfl⟩, ⟨_, rfl⟩, _, rfl⟩

theorem witness_InFrame : ∃ t, exec (.inp ⟨.positional, 4⟩) ready = .next t := ⟨_, rfl⟩

theorem witness_OutFrame :
    (∃ t, exec (.out (.positional 0)) ready = .next t) ∧
    ∃ t, exec (.out (.positional 5)) ready = .next t ∧ t.steps = ready.steps := ⟨⟨_, rfl⟩, _, rfl, rfl⟩

theorem witness_JumpFrame :
    (∃ t, exec (.jt (.positional 0) (.immediate 9)) ready = .next t) ∧
    ∃ t, exec (.jf (.positional 0) (.immediate 9)) ready = .next t := ⟨⟨_, rfl⟩, _, rfl⟩

theorem witness_HltFrame : ∃ t, exec .hlt ready = .next t := ⟨_, rfl⟩

theorem witness_HaltedOnlyByHalt : ∃ t, step (boot [99] [] none) = .next t ∧ t.run = .halted := ⟨_, rfl, rfl⟩

theorem witness_NextIpTable :
    ready.run = .running ∧ UnderLimit ready ∧
    (∃ i, fetchInstr ready = .ok i) ∧ (∃ t, step ready = .next t ∧ t.run ≠ .faulted) ∧
    ∃ t, step (boot [3, 0] [] none) = .next t ∧ t.run = .faulted :=
  ⟨rfl, by decide, ⟨_, rfl⟩, ⟨_, rfl, by decide⟩, _, rfl, rfl⟩

theorem witness_IpNeverWraps :
    (boot [99] [] none).mem.len ≤ Config.memLenMax ∧ fetchInstr (boot [99] [] none) = .ok .hlt := ⟨by decide, rfl⟩

theorem witness_StepsCountsCommits :
    (∃ t, step ready = .next t ∧ t.run ≠ .faulted) ∧ ∃ t, step (boot [42] [] none) = .next t ∧ t.run = .faulted :=
  ⟨⟨_, rfl, by decide⟩, _, rfl, rfl⟩

theorem witness_WriteIsSeenByNextAccess :
    (∃ m, memWrite ready.mem 4 7 = .ok m) ∧ (∃ m, memWrite ready.mem 0 0 = .ok m) ∧ (5 : Word) ≠ 4 :=
  ⟨⟨_, rfl⟩, ⟨_, rfl⟩, by decide⟩

theorem witness_OutputsAreInvisibleToProgram : ∃ t, step (boot [4, 0] [] none) = .next t := ⟨_, rfl⟩

theorem witness_LimitedRunEnds : (boot [1105, 1, 0] [] (some 5)).stepLimit = some 5 := rfl

theorem witness_ResetMeetsInvariant : [1101, 4, 3, 0, (99 : Word)].length ≤ Config.memLenMax := by decide

theorem witness_StepKeepsInvariant : StateInv core.reset ∧ ∃ t, step core.reset = .next t :=
  ⟨⟨by decide, by decide, by decide, by simp [core, State.reset], by simp [core, State.reset], by decide, rfl,
    by simp [core, State.reset]⟩, _, rfl⟩

theorem witness_HostActsOnlyWhileStopped :
    ready.run = .running ∧ HostOp.load [] ≠ .reset ∧ ({ ready with run := .halted } : State).run ≠ .running ∧
    InMemory ready.mem 4 ∧ ¬ InMemory ready.mem 5 ∧ ¬ InMemory ready.mem (-1) ∧
    ([] : List Word).length ≤ Config.memLenMax := by decide

theorem witness_HostActsOnlyWhileStopped_tooLong :
    Config.memLenMax < (List.replicate (2 ^ 62 + 1) (0 : Word)).length := by
  rw [List.length_replicate]; decide

/-- Before the first reset: one operation of each kind, by hand from R224 and R220. -/
theorem test_hostActs_before_reset :
    hostActs [.load [3, 0, 99], .poke 1 2, .setInput [7], .setStepLimit (some 5), .reset] (.beforeReset .empty) =
      some (.started (boot [3, 2, 99] [7] (some 5))) := by decide

theorem witness_ResultOfEndedRun :
    (∃ t, step (boot [99] [] none) = .next t ∧ t.run = .halted) ∧
    ∃ t, step (boot [42] [] none) = .next t ∧ t.run = .faulted ∧ t.fault.isSome :=
  ⟨⟨_, rfl, rfl⟩, _, rfl, rfl, rfl⟩

/-- A program that is `HLT` and two cells: every trial halts with 99. -/
def haltOnly : Setup := ⟨.ofImage [99, 0, 0], [], none⟩

theorem witness_SearchFindsFirstMatch_found : parameterSearch 1 haltOnly 99 = .found 0 0 := by decide

theorem trial_haltOnly {noun verb : Nat} (hn : noun ≤ 99) (hv : verb ≤ 99) :
    trial 1 haltOnly noun verb = .halted (some 99) := by
  let m : Memory := (haltOnly.mem.write 1 (BitVec.ofNat 64 noun)).write 2 (BitVec.ofNat 64 verb)
  have injected : inject haltOnly noun verb = some { haltOnly with mem := m } := by
    simp only [inject, hn, hv, true_and, m]
    rfl
  have cell : m.read 0 = 99 := by simp only [m, read_write]; rfl
  have inside : InMemory m 0 := by simp only [InMemory, m, write_len]; decide
  have fetched : fetchInstr (Setup.reset { haltOnly with mem := m }) = .ok .hlt := by
    have hf : fetch m 0 = .ok 99 := (fetch_ok_iff m 0 99).mpr ⟨inside, cell⟩
    simp only [fetchInstr, Setup.reset, hf]
    rfl
  have stepped : step (Setup.reset { haltOnly with mem := m }) = exec .hlt (Setup.reset { haltOnly with mem := m }) := by
    rw [step_of_fetchInstr rfl (by simp [UnderLimit, Setup.reset, haltOnly]), fetched]
  simp only [trial, injected, runFor, stepped]
  show Trial.halted (if 0 < m.len then some (m.read 0) else none) = _
  rw [cell]
  rfl

theorem witness_SearchFindsFirstMatch_notFound :
    parameterSearch 1 haltOnly 7 = .notFound ∧
    ∀ n v, n ≤ 99 → v ≤ 99 → ∃ d, trial 1 haltOnly n v = .halted d ∧ d ≠ some 7 := by
  have misses (n v : Nat) (hn : n ≤ 99) (hv : v ≤ 99) : ∃ d, trial 1 haltOnly n v = .halted d ∧ d ≠ some 7 :=
    ⟨some 99, trial_haltOnly hn hv, by decide⟩
  refine ⟨?_, misses⟩
  have passed := searchList_append (target := 7) (run := trial 1 haltOnly) (pre := searchPairs)
    (fun q hq => have in99 := (mem_searchPairs q.1 q.2).mp hq; misses q.1 q.2 in99.1 in99.2) []
  rwa [List.append_nil] at passed

/-- The image of the spec's search vectors, cut short: `MEM[0] <- MEM[noun] + MEM[verb]`, then HLT. -/
def sumCells : Setup := ⟨.ofImage [1, 0, 0, 0, 99], [], none⟩

/-- Pair (0, 0) halts with 1 + 1, pair (0, 1) with 1 + 0: the target 1 is found at the second pair. -/
theorem witness_SearchFindsFirstMatch_second :
    trial 2 sumCells 0 0 = .halted (some 2) ∧ trial 2 sumCells 0 1 = .halted (some 1) ∧
    (∀ n v, n ≤ 99 → v ≤ 99 → searchAnswer n v < searchAnswer 0 1 → n = 0 ∧ v = 0) ∧
    parameterSearch 2 sumCells 1 = .found 0 1 :=
  ⟨by decide, by decide, by intro n v; simp only [searchAnswer]; omega, by decide⟩

theorem witness_SearchAbortsAtFirstFault :
    parameterSearch 1 ⟨.ofImage [42, 0, 0], [], none⟩ 7 =
      .aborted ⟨.invalidOpcode, 0, none, some 42, some 42⟩ := by decide

theorem witness_DiagIsLastOutput :
    Readable ready.mem (.positional 4) ∧ ready.diag = ready.outSeq.getLast? ∧
    ({ ready with diag := some 2, outSeq := [1, 2] } : State).diag = [1, (2 : Word)].getLast? := by decide

theorem witness_FetchDoesNotLookAhead :
    ready.mem.len ≤ Config.memLenMax ∧ (∃ i, fetchInstr ready = .ok i ∧ (encode i).length = 4) ∧
    (ready.mem.write 4 42).len = ready.mem.len ∧
    (∀ k < 4, (ready.mem.write 4 42).read (ready.ip.toNat + k) = ready.mem.read (ready.ip.toNat + k)) ∧
    (ready.mem.write 4 42).read 4 ≠ ready.mem.read 4 :=
  ⟨by decide, ⟨_, rfl, rfl⟩, rfl, by decide, by decide⟩

theorem witness_StoppedUntilReset : ({ ready with run := .halted } : State).run ≠ .running := by decide

theorem witness_PseudoInstructions :
    asmInstr .jmp [(true, 4)] = some (.jt (.immediate 1) (.immediate 4)) ∧
    Readable ready.mem (asmOperand (false, 4)) ∧ InMemory ready.mem 0 :=
  ⟨rfl, show InMemory ready.mem 4 by decide, by decide⟩

end Sys2Proof.Tests
end

section
namespace Sys2Proof.Machine

/-! The state after reset, and a loaded image read back (R37, R224). -/

@[simp] theorem ofImage_len (image : List Word) : (Memory.ofImage image).len = image.length := rfl

@[simp] theorem length_toImage (m : Memory) : m.toImage.length = m.len := by simp [Memory.toImage]

@[simp] theorem getElem_toImage (m : Memory) (k : Nat) (h : k < m.toImage.length) : m.toImage[k] = m.read k := by
  simp [Memory.toImage]

/-- A load keeps the image cell by cell, the zero cells that memory does not list included. -/
theorem toImage_ofImage (image : List Word) : (Memory.ofImage image).toImage = image := by
  apply List.ext_getElem
  · simp
  · intro k _ inside
    calc (Memory.ofImage image).toImage[k]
        = (Memory.ofImage image).read k := getElem_toImage ..
      _ = image.getD k 0 := read_ofImage image k
      _ = image[k] := (List.getElem_eq_getD 0).symm

/-- Reset keeps what the host has set and gives every other state element its reset value (R37). -/
theorem reset_values (p : Setup) :
    p.reset = ⟨p.mem, 0, .running, none, none, p.inSeq, 0, [], 0, p.stepLimit⟩ := rfl

/-- Settles O46: reset field by field from its equation, the image read back cell by cell through `read_ofImage`. -/
theorem stateAfterReset : Obligations.StateAfterReset := by
  refine ⟨fun p => ?_, fun image => ⟨toImage_ofImage image, ofImage_len image⟩⟩
  simp [reset_values]

end Sys2Proof.Machine
end

section
namespace Sys2Proof.Machine

/-! Facts that every step keeps, carried over a whole run, and the run parameters (R36, R68). -/

/-- The unfolding of a run at its first step: it goes on from the next state, or the step had none and it stays. -/
theorem runFor_succ_cases (k : Nat) (s : State) :
    (∃ t, step s = .next t ∧ runFor (k + 1) s = runFor k t) ∨ runFor (k + 1) s = s := by
  cases h : step s with
  | next t => exact .inl ⟨t, rfl, by simp only [runFor, h]⟩
  | fault f => exact .inr (by simp only [runFor, h])
  | refused r => exact .inr (by simp only [runFor, h])

/-- What every step keeps holds after any number of steps. -/
theorem runFor_keeps {P : State → Prop} (keeps : ∀ s t, step s = .next t → P s → P t) (k : Nat) {s : State} (h : P s) :
    P (runFor k s) := by
  induction k generalizing s with
  | zero => exact h
  | succ k ih =>
    rcases runFor_succ_cases k s with ⟨t, next, run⟩ | run
    · exact run ▸ ih (keeps s t next h)
    · exact run.symm ▸ h

/-- A commit writes one cell or none, so the memory length stays. -/
@[simp] theorem commit_mem_len (s : State) (e : Effects) : (s.commit e).mem.len = s.mem.len := by
  rw [commit_mem]
  cases e.write <;> rfl

/-- `MEM_LEN` and the run parameters of R36 are those of `s`. -/
def SameParameters (s t : State) : Prop := t.mem.len = s.mem.len ∧ t.inSeq = s.inSeq ∧ t.stepLimit = s.stepLimit

theorem SameParameters.trans {s t u : State} (h : SameParameters s t) (h' : SameParameters t u) : SameParameters s u := by
  obtain ⟨len, input, limit⟩ := h
  obtain ⟨len', input', limit'⟩ := h'
  exact ⟨len'.trans len, input'.trans input, limit'.trans limit⟩

theorem commit_sameParameters (s : State) (e : Effects) : SameParameters s (s.commit e) := ⟨commit_mem_len s e, rfl, rfl⟩

theorem raise_sameParameters (s : State) (tr : Trap) (w : Option Word) : SameParameters s (s.raise tr w) := ⟨rfl, rfl, rfl⟩

/-- Every step ends in a fault entry or in a commit, and neither touches the run parameters. -/
theorem step_sameParameters {s t : State} (h : step s = .next t) : SameParameters s t := by
  obtain ⟨-, ⟨-, rfl⟩ | ⟨-, tr, w, -, rfl⟩ | ⟨-, i, -, executed⟩⟩ := step_next h
  · exact raise_sameParameters ..
  · exact raise_sameParameters ..
  · obtain ⟨e, -, rfl⟩ | ⟨tr, -, rfl⟩ := exec_next executed
    · exact commit_sameParameters ..
    · exact raise_sameParameters ..

/-- Settles O33: every step keeps the run parameters, so every run does. -/
theorem runParametersNeverChange : Obligations.RunParametersNeverChange := fun k s =>
  runFor_keeps (P := SameParameters s) (fun _ _ next same => same.trans (step_sameParameters next)) k ⟨rfl, rfl, rfl⟩

end Sys2Proof.Machine
end

section
namespace Sys2Proof.Machine

/-! The step limit (R101): the check fires before the fetch, and no later part of a step raises its fault. -/

/-- A running block at or over its limit takes the limit fault, whatever memory holds. -/
theorem step_of_limitReached {s : State} (running : s.run = .running) (reached : ¬ UnderLimit s) :
    step s = .next (s.raise (trapPlain .stepLimitExceeded) none) := by
  have hl : s.limitReached = true := (limitReached_iff s).mpr reached
  simp only [step, cycle, running, runningCycle, if_pos hl]

/-- A commit can halt the block, but not fault it. -/
theorem commit_run_ne_faulted {s : State} (running : s.run = .running) (e : Effects) : (s.commit e).run ≠ .faulted := by
  rw [commit_run, running]
  split <;> exact nofun

/-- The word fetch, the decoder and the parameter fetch raise faults of their own kinds. -/
theorem fetchInstr_error_kind {s : State} {tr : Trap} {w : Option Word} (h : fetchInstr s = .error (tr, w)) :
    tr.kind ≠ .stepLimitExceeded := by
  rcases fetchInstr_cases s with ⟨_, fetched, h'⟩ | ⟨_, _, _, rejected, h'⟩ | ⟨_, _, _, _, _, params, h'⟩ |
      ⟨_, _, _, _, _, _, h'⟩ <;> (rw [h'] at h; cases h)
  case inl =>
    obtain rfl | rfl := fetch_error fetched <;> exact nofun
  case inr.inl =>
    obtain rfl | ⟨_, rfl⟩ := decodeHead_error rejected <;> exact nofun
  case inr.inr.inl =>
    obtain ⟨_, rfl | rfl⟩ := fetchParams_error params <;> exact nofun

/-- The instruction rules raise faults of their own kinds. -/
theorem ruleOf_error_kind {i : Instr} {s : State} {tr : Trap} (h : ruleOf i s = .error tr) :
    tr.kind ≠ .stepLimitExceeded := by
  obtain ⟨_, rfl⟩ | rfl | rfl := ruleOf_error h <;> exact nofun

/-- A step below the limit that leaves the block faulted has entered a fault of another kind. -/
theorem step_faulted_underLimit {s t : State} (under : UnderLimit s) (next : step s = .next t) (faulted : t.run = .faulted) :
    ∃ tr w, t = s.raise tr w ∧ tr.kind ≠ .stepLimitExceeded := by
  obtain ⟨running, ⟨reached, -⟩ | ⟨-, tr, w, fetched, raised⟩ | ⟨-, i, -, executed⟩⟩ := step_next next
  · exact absurd under reached
  · exact ⟨tr, w, raised, fetchInstr_error_kind fetched⟩
  · obtain ⟨e, -, rfl⟩ | ⟨tr, failed, raised⟩ := exec_next executed
    · exact absurd faulted (commit_run_ne_faulted running e)
    · exact ⟨tr, some i.word, raised, ruleOf_error_kind failed⟩

/-- Settles O9: the check decides alone at the limit, and below it a faulting step records a fault of the fetch, the decoder
or the rule. -/
theorem stepLimitCheckedFirst : Obligations.StepLimitCheckedFirst := by
  intro s running
  constructor
  · intro reached
    exact step_of_limitReached running reached
  · intro under t next faulted r recorded
    obtain ⟨tr, w, rfl, kind⟩ := step_faulted_underLimit under next faulted
    obtain rfl : _ = r := Option.some.inj recorded
    exact kind

end Sys2Proof.Machine
end

section
namespace Sys2Proof.Machine

/-! The output side (R142, R143): a completed OUT records its operand, and `DIAG` follows `OUT_SEQ` through every step. -/

/-- An OUT of a readable operand commits the move past it with the operand as its output. -/
theorem exec_out_readable {a : Operand} {s : State} (readable : Readable s.mem a) :
    exec (.out a) s = .next (s.commit { Effects.moveTo (.sequential 2) with output := some (valueOf s.mem a) }) := by
  have rule : ruleOf (.out a) s = .ok { Effects.moveTo (.sequential 2) with output := some (valueOf s.mem a) } := by
    simp only [ruleOf, outRule, resolve_readable readable]
  rw [exec_eq_finish, rule, finish_ok]

/-- `DIAG` is the last element of `OUT_SEQ`, or none when there is none. -/
def State.DiagIsLast (s : State) : Prop := s.diag = s.outSeq.getLast?

theorem raise_diagIsLast {s : State} (last : s.DiagIsLast) (tr : Trap) (w : Option Word) : (s.raise tr w).DiagIsLast := last

/-- A commit with an output appends it and puts it into `DIAG`; one without leaves both as they are. -/
theorem commit_diagIsLast {s : State} (last : s.DiagIsLast) (e : Effects) : (s.commit e).DiagIsLast := by
  rw [State.DiagIsLast, commit_diag, commit_outSeq]
  cases e.output with
  | none => exact last
  | some v => exact List.getLast?_concat.symm

/-- Every step ends in a fault entry or in a commit, and both keep `DIAG` last. -/
theorem step_diagIsLast {s t : State} (h : step s = .next t) (last : s.DiagIsLast) : t.DiagIsLast := by
  obtain ⟨-, ⟨-, rfl⟩ | ⟨-, tr, w, -, rfl⟩ | ⟨-, i, -, executed⟩⟩ := step_next h
  · exact raise_diagIsLast last ..
  · exact raise_diagIsLast last ..
  · obtain ⟨e, -, rfl⟩ | ⟨tr, -, rfl⟩ := exec_next executed
    · exact commit_diagIsLast last e
    · exact raise_diagIsLast last ..

/-- Settles O40: OUT's effect from its commit, and the invariant because every step keeps it. -/
theorem diagIsLastOutput : Obligations.DiagIsLastOutput :=
  ⟨fun _ _ readable => ⟨_, exec_out_readable readable, rfl, rfl⟩,
    fun k _ last => runFor_keeps (P := State.DiagIsLast) (fun _ _ => step_diagIsLast) k last⟩

end Sys2Proof.Machine
end

section
namespace Sys2Proof

/-! The words the decoder rejects (R103, R104): which of them are InvalidOpcode, with which value, and which InvalidMode. -/

/-- The opcode map has a row for exactly the nine opcodes. The list is of integers, as cell values are. -/
theorem opcodeOf_eq_none_iff (n : Nat) : opcodeOf n = none ↔ (n : Int) ∉ ([1, 2, 3, 4, 5, 6, 7, 8, 99] : List Int) := by
  simp only [opcodeOf, opcodeMap, List.find?_eq_none, List.forall_mem_cons, Opcode.code, beq_iff_eq]
  simp only [List.mem_cons, List.not_mem_nil, false_implies, implies_true, and_true, or_false]
  omega

/-- On a non-negative word the map is read at the two low digits of its value. -/
theorem opcodeOf_word_eq_none_iff {w : Word} (nonneg : 0 ≤ w.toInt) :
    opcodeOf (w.toNat % 100) = none ↔ w.toInt % 100 ∉ ([1, 2, 3, 4, 5, 6, 7, 8, 99] : List Int) := by
  rw [opcodeOf_eq_none_iff, Int.natCast_mod, toNat_of_nonneg nonneg, Nat.cast_ofNat]

theorem decodeHead_negative {w : Word} (negative : w.toInt < 0) :
    decodeHead w = .error (.invalidOpcode w.toInt) := by
  rw [decodeHead, if_pos negative]

theorem decodeHead_unlisted {w : Word} (nonneg : 0 ≤ w.toInt) (unlisted : opcodeOf (w.toNat % 100) = none) :
    decodeHead w = .error (.invalidOpcode (w.toInt / 10 % 10 * 10 + w.toInt % 10)) := by
  rw [decodeHead, if_neg (not_lt.mpr nonneg), unlisted, toNat_of_nonneg nonneg]
  simp [digit]

/-- Once the opcode is listed, the decoder accepts the word or finds fault with its modes. -/
theorem decodeHead_listed_cases {w : Word} (nonneg : 0 ≤ w.toInt) (listed : opcodeOf (w.toNat % 100) ≠ none) :
    (∃ h, decodeHead w = .ok h) ∨ decodeHead w = .error .invalidMode := by
  obtain ⟨op, row⟩ := Option.ne_none_iff_exists'.mp listed
  simp only [decodeHead, if_neg (not_lt.mpr nonneg), row]
  split
  · exact .inr rfl
  · split
    · exact .inl ⟨_, rfl⟩
    · exact .inr rfl

/-- The laws of `Laws.WordLegal`, one per constructor, for every instruction. -/
theorem wordLegal_statement (i : Instr) : Laws.WordLegal.Statement i := by
  cases i with
  | add a b d => exact Laws.WordLegal.add a b d
  | mul a b d => exact Laws.WordLegal.mul a b d
  | inp d => exact Laws.WordLegal.inp d
  | out a => exact Laws.WordLegal.out a
  | jt c t => exact Laws.WordLegal.jt c t
  | jf c t => exact Laws.WordLegal.jf c t
  | lt a b d => exact Laws.WordLegal.lt a b d
  | eq a b d => exact Laws.WordLegal.eq a b d
  | hlt => exact Laws.WordLegal.hlt

/-- An accepted word is the word of an instruction, and those pass the checks of R74. -/
theorem wordLegal_of_decodeHead_ok {w : Word} {h : Head} (accepted : decodeHead w = .ok h) : wordLegal w = true := by
  obtain ⟨nonneg, -, -⟩ := decodeHead_ok accepted
  obtain ⟨wf, fields, -⟩ := wordLegal_statement (h.assemble [])
  rw [assemble_word accepted] at fields
  rw [wordLegal, (wordNonNegative_iff w).mpr nonneg, fields, Bool.true_and]
  exact wf

theorem decodeHead_illegal {w : Word} (nonneg : 0 ≤ w.toInt) (listed : opcodeOf (w.toNat % 100) ≠ none)
    (illegal : wordLegal w = false) : decodeHead w = .error .invalidMode := by
  obtain ⟨h, accepted⟩ | rejected := decodeHead_listed_cases nonneg listed
  · exact absurd (wordLegal_of_decodeHead_ok accepted) (Bool.eq_false_iff.mp illegal)
  · exact rejected

end Sys2Proof
end

section
namespace Sys2Proof.Machine

/-! The faults of 60_exceptions.md that a rejected word, an ALU result and an empty input raise (R183, R186 to R188). -/

/-- Fault entry, with the fields of the record written out. -/
theorem next_raise_eq_faultNext (s : State) (tr : Trap) (w : Option Word) :
    .next (s.raise tr w) = faultNext s tr.kind tr.addr w tr.opcode := rfl

/-- A word the decoder rejects ends the step before any parameter cell is read. -/
theorem step_of_decodeHead_error {s : State} {e : DecodeError} (running : s.run = .running) (under : UnderLimit s)
    (inside : InMemory s.mem s.ip) (rejected : decodeHead (s.mem.read s.ip.toNat) = .error e) :
    step s = faultNext s (trapOfDecode e).kind (trapOfDecode e).addr (some (s.mem.read s.ip.toNat))
      (trapOfDecode e).opcode := by
  have fetched : fetch s.mem s.ip = .ok (s.mem.read s.ip.toNat) := (fetch_ok_iff ..).mpr ⟨inside, rfl⟩
  have failed : fetchInstr s = .error (trapOfDecode e, some (s.mem.read s.ip.toNat)) := by
    simp only [fetchInstr, fetched, rejected]
  rw [step_of_fetchInstr running under, failed, ← next_raise_eq_faultNext]

/-- Settles O11: each clause is one answer of the word decoder, and the step takes the fault of that answer. -/
theorem illegalWordFaults : Obligations.IllegalWordFaults := by
  rintro s _ running under inside rfl
  refine ⟨fun negative => ?_, fun nonneg unlisted => ?_, fun nonneg listed illegal => ?_, rfl, rfl⟩
  · exact step_of_decodeHead_error running under inside (decodeHead_negative negative)
  · have noRow := (opcodeOf_word_eq_none_iff nonneg).mpr unlisted
    exact step_of_decodeHead_error running under inside (decodeHead_unlisted nonneg noRow)
  · have row := fun noRow => (opcodeOf_word_eq_none_iff nonneg).mp noRow listed
    exact step_of_decodeHead_error running under inside (decodeHead_illegal nonneg row illegal)

/-- An instruction whose rule raises a fault takes it with its own word. -/
theorem exec_of_ruleOf_error {i : Instr} {s : State} {tr : Trap} (failed : ruleOf i s = .error tr) :
    exec i s = faultNext s tr.kind tr.addr (some i.word) tr.opcode := by
  rw [exec_eq_finish, failed, finish_error, next_raise_eq_faultNext]

/-- Past the operand and destination checks, a fault of the result is the fault of the rule. -/
theorem aluRule_result_error {f : Word → Word → Except Trap Word} {a b : Operand} {d : Dest} {s : State} {tr : Trap}
    (ha : Readable s.mem a) (hb : Readable s.mem b) (hd : InMemory s.mem d.addr)
    (failed : f (valueOf s.mem a) (valueOf s.mem b) = .error tr) : aluRule f a b d s = .error tr := by
  simp only [aluRule, resolve2_readable ha hb, destAddr, checkDest_inMemory hd, failed]

theorem narrow_outside {r : Int} (outside : ¬ InCellRange r) : narrow r = .error (trapPlain .overflow) := by
  rw [narrow_eq, if_neg outside]

/-- Settles O24: `narrow` refuses the exact result, after both operands and the destination have passed. -/
theorem overflowFaults : Obligations.OverflowFaults := by
  refine ⟨rfl, fun a b d s ha hb hd => ⟨fun outside => ?_, fun outside => ?_⟩⟩
  · have failed : ruleOf (.add a b d) s = .error (trapPlain .overflow) :=
      aluRule_result_error ha hb hd (narrow_outside outside)
    exact exec_of_ruleOf_error failed
  · have failed : ruleOf (.mul a b d) s = .error (trapPlain .overflow) :=
      aluRule_result_error ha hb hd (narrow_outside outside)
    exact exec_of_ruleOf_error failed

/-- Settles O25: past the destination check there is no input at the index, so IN's rule raises the fault. -/
theorem inputExhaustedFaults : Obligations.InputExhaustedFaults := by
  refine ⟨rfl, fun d s hd atEnd => ?_⟩
  have noInput : s.inSeq[s.inPtr]? = none := List.getElem?_eq_none atEnd.ge
  have failed : ruleOf (.inp d) s = .error (trapPlain .inputExhausted) := by
    simp only [ruleOf, inRule, destAddr, checkDest_inMemory hd, nextInput, noInput]
  exact exec_of_ruleOf_error failed

end Sys2Proof.Machine
end

section
namespace Sys2Proof.Machine

/-! What a run that has ended returns (R226, R227). -/

/-- The projection prefers `DIAG` to cell 0 (R226). -/
theorem diagnostic_eq (s : State) :
    diagnostic s =
      if s.diag.isSome then s.diag else if 0 < s.mem.len then some (s.mem.read 0) else none := by
  unfold diagnostic
  cases s.diag <;> rfl

theorem executionResult_halted {s : State} (halted : s.run = .halted) :
    executionResult s = some (.halted s.mem (diagnostic s) s.outSeq) := by
  simp only [executionResult, halted]

theorem executionResult_faulted {s : State} (faulted : s.run = .faulted) :
    executionResult s = s.fault.map .faulted := by
  simp only [executionResult, faulted]

theorem executionResult_running {s : State} (running : s.run = .running) : executionResult s = none := by
  simp only [executionResult, running]

/-- Settles O48: one equation of the result per value of `RUN`, with the projection written out when halted. -/
theorem resultOfEndedRun : Obligations.ResultOfEndedRun := by
  intro s
  refine ⟨fun halted => ?_, fun faulted r recorded => ?_, executionResult_running⟩
  · rw [executionResult_halted halted, diagnostic_eq]
  · rw [executionResult_faulted faulted, recorded, Option.map_some]

end Sys2Proof.Machine
end

section
namespace Sys2Proof

/-! The decoder and the encoder over whole instructions are inverse to each other (R70, R85, R105). -/

/-- Decoding reads the head of the first cell and takes as many cells after it as that head has parameters. -/
theorem decode_cons_of_head {w : Word} {h : Head} (head : decodeHead w = .ok h) {ps : List Word}
    (count : ps.length = h.op.params) (rest : List Word) : decode (w :: (ps ++ rest)) = .ok (h.assemble ps, rest) := by
  have enough : ¬ (ps ++ rest).length < h.op.params := by
    rw [List.length_append]
    omega
  simp only [decode, head, if_neg enough, List.take_left' count, List.drop_left' count]

/-- Whatever decodes is a word with a head, that head's parameter cells, and the rest. -/
theorem decode_ok {cells rest : List Word} {i : Instr} (decoded : decode cells = .ok (i, rest)) :
    ∃ w h ps, decodeHead w = .ok h ∧ ps.length = h.op.params ∧ i = h.assemble ps ∧ cells = w :: (ps ++ rest) := by
  cases cells with
  | nil => cases decoded
  | cons w tail =>
    simp only [decode] at decoded
    split at decoded
    · cases decoded
    · rename_i h head
      split at decoded
      · cases decoded
      · rename_i enough
        cases decoded
        exact ⟨w, h, tail.take h.op.params, head, List.length_take_of_le (not_lt.mp enough), rfl, by simp⟩

/-- The parameter cells an instruction was assembled from are its own. -/
theorem paramCells_assemble {h : Head} {ps : List Word} (count : ps.length = h.op.params) :
    (h.assemble ps).paramCells = ps := by
  obtain ⟨op, m1, m2, m3⟩ := h
  cases op with
  | add | mul | lt | eq =>
    obtain ⟨p, q, r, rfl⟩ := List.length_eq_three.mp count
    simp [Head.assemble, Instr.paramCells, param]
  | jt | jf =>
    obtain ⟨p, q, rfl⟩ := List.length_eq_two.mp count
    simp [Head.assemble, Instr.paramCells, param]
  | inp | out =>
    obtain ⟨p, rfl⟩ := List.length_eq_one_iff.mp count
    simp [Head.assemble, Instr.paramCells, param]
  | hlt =>
    obtain rfl := List.length_eq_zero_iff.mp count
    rfl

/-- The encoding of an assembled instruction is the word of its head and the cells it was assembled from. -/
theorem encode_assemble {w : Word} {h : Head} (head : decodeHead w = .ok h) {ps : List Word}
    (count : ps.length = h.op.params) : encode (h.assemble ps) = w :: ps := by
  rw [encode, assemble_word head, paramCells_assemble count]

/-- Settles O1: the encoder's word decodes to the instruction's head, which takes exactly its own parameter cells. -/
theorem decodeOfEncodeIsSame : Obligations.DecodeOfEncodeIsSame := by
  intro i rest
  have decoded := decode_cons_of_head (decodeHead_word i) (paramCells_length i) rest
  rwa [assemble_paramCells] at decoded

/-- Settles O2: the word and the parameter cells that were decoded are those of the assembled instruction. -/
theorem encodeOfDecodeIsSame : Obligations.EncodeOfDecodeIsSame := by
  intro cells i rest decoded
  obtain ⟨w, h, ps, head, count, rfl, rfl⟩ := decode_ok decoded
  rw [encode_assemble head count, List.cons_append]

theorem decode_of_encode {cells rest : List Word} {i : Instr} (written : encode i ++ rest = cells) :
    decode cells = .ok (i, rest) := written ▸ decodeOfEncodeIsSame i rest

/-- Settles O5: each line of cells is the encoding of its instruction, and the encoding decodes. -/
theorem writtenWordsDecode : Obligations.WrittenWordsDecode := by
  refine ⟨?_, ?_, ?_, ?_, ?_, ?_, ?_, ?_, ?_, ?_⟩ <;> exact decode_of_encode (by decide)

end Sys2Proof
end

section
namespace Sys2Proof

/-! The decoder of 40_decode.md against the conditions of R74, and the table of the legal words. -/

/-- Condition 2 of R74 says that the opcode map has a row for the word. -/
theorem opcodeListed_iff_opcodeOf (n : Nat) : (fieldsOf n).opcodeListed = true ↔ opcodeOf (n % 100) ≠ none := by
  rw [opcodeListed_iff, ne_eq, opcodeOf_eq_none_iff, not_not]
  simp only [fieldsOf, List.mem_cons, List.not_mem_nil, or_false]
  omega

theorem paramCount_code (op : Opcode) : paramCount op.code = op.params := by cases op <;> rfl

/-- Conditions 3 and 4 of R74 at one position are what the decoder asks of its digit. -/
theorem modeDigit_of_legal {n k m : Nat} (used : k ≤ n → m ≤ 1) (unused : n < k → m = 0) :
    ∃ mode, modeDigit n k m = some mode := by
  cases answer : modeDigit n k m with
  | some mode => exact ⟨mode, rfl⟩
  | none =>
    obtain ⟨nonzero, notOne⟩ := modeDigit_none answer
    omega

/-- The decoder accepts every word that meets the five conditions. -/
theorem decodeHead_of_wordLegal {w : Word} (legal : wordLegal w = true) : ∃ h, decodeHead w = .ok h := by
  obtain ⟨nonneg, listed, used, unused, high⟩ := (wordLegal_iff w).mp legal
  obtain ⟨op, row⟩ := Option.ne_none_iff_exists'.mp ((opcodeListed_iff_opcodeOf _).mp listed)
  have params : paramCount (fieldsOf w.toNat).op = op.params := by
    rw [← paramCount_code, ← opcodeOf_some row]
    rfl
  obtain ⟨u1, u2, u3⟩ := (usedModesLegal_iff _).mp used
  obtain ⟨z1, z2, z3⟩ := (unusedModesZero_iff _).mp unused
  have fits : ¬ 100000 ≤ w.toNat := by
    have := (highDigitsZero_iff _).mp high
    simp only [fieldsOf] at this
    omega
  rw [params] at u1 u2 u3 z1 z2 z3
  obtain ⟨m1, d1⟩ := modeDigit_of_legal u1 z1
  obtain ⟨m2, d2⟩ := modeDigit_of_legal u2 z2
  obtain ⟨m3, d3⟩ := modeDigit_of_legal u3 z3
  refine ⟨⟨op, m1, m2, m3⟩, ?_⟩
  have e1 : modeDigit op.params 1 (digit w.toNat 2) = some m1 := d1
  have e2 : modeDigit op.params 2 (digit w.toNat 3) = some m2 := d2
  have e3 : modeDigit op.params 3 (digit w.toNat 4) = some m3 := d3
  simp only [decodeHead, if_neg (not_lt.mpr nonneg), row, if_neg fits, e1, e2, e3]

/-- Settles O3: the accepted words are the legal ones, and a rejected one fails first by sign or opcode, then by mode. -/
theorem decoderAcceptsExactlyLegalWords : Obligations.DecoderAcceptsExactlyLegalWords := by
  intro w
  refine ⟨⟨fun ⟨_, accepted⟩ => wordLegal_of_decodeHead_ok accepted, decodeHead_of_wordLegal⟩, fun refused => ?_,
    fun passed illegal => ?_⟩
  · by_cases nonneg : 0 ≤ w.toInt
    · rw [(wordNonNegative_iff w).mpr nonneg, Bool.true_and, ← Bool.not_eq_true, opcodeListed_iff_opcodeOf,
        not_not] at refused
      exact ⟨_, decodeHead_unlisted nonneg refused⟩
    · exact ⟨_, decodeHead_negative (not_le.mp nonneg)⟩
  · obtain ⟨nonneg, listed⟩ := (Bool.and_eq_true _ _).mp passed
    exact decodeHead_illegal ((wordNonNegative_iff w).mp nonneg) ((opcodeListed_iff_opcodeOf _).mp listed) illegal

/-- The words of an opcode are the numbers of its heads. -/
theorem decodes_to_op_iff (w : Word) (op : Opcode) :
    (∃ h, decodeHead w = .ok h ∧ h.op = op) ↔
      ∃ m1 m2 m3, (Head.mk op m1 m2 m3).unusedPositional ∧ w.toInt = (Head.mk op m1 m2 m3).number := by
  constructor
  · rintro ⟨⟨_, m1, m2, m3⟩, accepted, rfl⟩
    obtain ⟨nonneg, number, unused⟩ := decodeHead_ok accepted
    exact ⟨m1, m2, m3, unused, by rw [toNat_of_nonneg nonneg, number]⟩
  · rintro ⟨m1, m2, m3, unused, value⟩
    have word : w = BitVec.ofNat 64 (Head.mk op m1 m2 m3).number := by
      rw [← BitVec.ofInt_natCast, ← value, BitVec.ofInt_toInt]
    exact ⟨_, word ▸ decodeHead_number unused, rfl⟩

/-- There are two modes. -/
theorem exists_mode {p : Mode → Prop} : (∃ m, p m) ↔ p .positional ∨ p .immediate :=
  ⟨by rintro ⟨_ | _, h⟩; exacts [.inl h, .inr h], by rintro (h | h) <;> exact ⟨_, h⟩⟩

/-- An opcode with three parameters has each of its mode digits free. -/
theorem decodes_to_op_of_three_params (w : Word) {op : Opcode} (count : op.params = 3) :
    (∃ h, decodeHead w = .ok h ∧ h.op = op) ↔
      w.toInt ∈ ([op.code, op.code + 100, op.code + 1000, op.code + 1100, op.code + 10000, op.code + 10100,
        op.code + 11000, op.code + 11100] : List Int) := by
  rw [decodes_to_op_iff]
  simp only [exists_mode, Head.unusedPositional, count, Head.number, Mode.digit, List.mem_cons, List.not_mem_nil,
    Nat.reduceLT, false_implies, true_and, and_true, or_false]
  push_cast
  omega

/-- An opcode with two parameters has no third mode digit. -/
theorem decodes_to_op_of_two_params (w : Word) {op : Opcode} (count : op.params = 2) :
    (∃ h, decodeHead w = .ok h ∧ h.op = op) ↔
      w.toInt ∈ ([op.code, op.code + 100, op.code + 1000, op.code + 1100] : List Int) := by
  rw [decodes_to_op_iff]
  simp only [exists_mode, Head.unusedPositional, count, Head.number, Mode.digit, List.mem_cons, List.not_mem_nil,
    Nat.reduceLT, false_implies, implies_true, reduceCtorEq, imp_false, not_true, true_and, false_and, or_false]
  push_cast
  omega

/-- An opcode with one parameter has one mode digit. -/
theorem decodes_to_op_of_one_param (w : Word) {op : Opcode} (count : op.params = 1) :
    (∃ h, decodeHead w = .ok h ∧ h.op = op) ↔ w.toInt ∈ ([op.code, op.code + 100] : List Int) := by
  rw [decodes_to_op_iff]
  simp [exists_mode, Head.unusedPositional, count, Head.number, Mode.digit]

/-- HLT has no mode digit. -/
theorem decodes_to_hlt_iff (w : Word) : (∃ h, decodeHead w = .ok h ∧ h.op = .hlt) ↔ w.toInt ∈ ([99] : List Int) := by
  rw [decodes_to_op_iff]
  simp [exists_mode, Head.unusedPositional, Opcode.params, Head.number, Opcode.code, Mode.digit]

/-- The decoder accepts a word or names one of two errors. -/
theorem decodeHead_rejection {w : Word} (refused : ∀ h, decodeHead w ≠ .ok h) :
    decodeHead w = .error .invalidMode ∨ ∃ v, decodeHead w = .error (.invalidOpcode v) := by
  cases answer : decodeHead w with
  | ok h => exact absurd answer (refused h)
  | error e =>
    obtain rfl | ⟨v, rfl⟩ := Machine.decodeHead_error answer
    · exact .inl rfl
    · exact .inr ⟨v, rfl⟩

/-- Settles O4: an opcode's words are its number with the digit of each of its parameters at 0 or 1. -/
theorem fortyFiveLegalWords : Obligations.FortyFiveLegalWords := fun w =>
  ⟨decodes_to_op_of_three_params w (op := .add) rfl, decodes_to_op_of_three_params w (op := .mul) rfl,
    decodes_to_op_of_one_param w (op := .inp) rfl, decodes_to_op_of_one_param w (op := .out) rfl,
    decodes_to_op_of_two_params w (op := .jt) rfl, decodes_to_op_of_two_params w (op := .jf) rfl,
    decodes_to_op_of_three_params w (op := .lt) rfl, decodes_to_op_of_three_params w (op := .eq) rfl,
    decodes_to_hlt_iff w, decodeHead_rejection⟩

end Sys2Proof
end

section
namespace Sys2Proof.Machine

/-! What a step can do: it enters a fault that fits its kind, or commits the effects of the fetched instruction's rule. -/

/-- The effects an instruction commits when its rule raises no fault, and what the rule checked before (R131 to R170). -/
def Commits (i : Instr) (s : State) (e : Effects) : Prop :=
  match i with
  | .add a b d | .mul a b d | .lt a b d | .eq a b d =>
    Readable s.mem a ∧ Readable s.mem b ∧ InMemory s.mem d.addr ∧ ∃ v, e = .store d v 4
  | .inp d =>
    InMemory s.mem d.addr ∧ ∃ v, s.inSeq[s.inPtr]? = some v ∧ e = { Effects.store d v 2 with consume := true }
  | .out a => Readable s.mem a ∧ e = { Effects.moveTo (.sequential 2) with output := some (valueOf s.mem a) }
  | .jt c g =>
    Readable s.mem c ∧ Readable s.mem g ∧
      e = .moveTo (if !isZero (valueOf s.mem c) then .target (valueOf s.mem g) else .sequential 3)
  | .jf c g =>
    Readable s.mem c ∧ Readable s.mem g ∧
      e = .moveTo (if isZero (valueOf s.mem c) then .target (valueOf s.mem g) else .sequential 3)
  | .hlt => e = { Effects.moveTo .hold with halt := true }

theorem aluRule_ok {f : Word → Word → Except Trap Word} {a b : Operand} {d : Dest} {s : State} {e : Effects}
    (ok : aluRule f a b d s = .ok e) :
    Readable s.mem a ∧ Readable s.mem b ∧ InMemory s.mem d.addr ∧ ∃ v, e = .store d v 4 := by
  obtain ⟨_, -, rule⟩ | ⟨ha, hb, hd, ⟨_, -, rule⟩ | ⟨v, -, rule⟩⟩ := aluRule_cases f a b d s <;>
    (rw [rule] at ok; cases ok)
  exact ⟨ha, hb, hd, v, rfl⟩

theorem jumpRule_ok {taken : Word → Bool} {c g : Operand} {s : State} {e : Effects} (ok : jumpRule taken c g s = .ok e) :
    Readable s.mem c ∧ Readable s.mem g ∧
      e = .moveTo (if taken (valueOf s.mem c) then .target (valueOf s.mem g) else .sequential 3) := by
  obtain ⟨_, -, rule⟩ | ⟨hc, hg, rule⟩ := jumpRule_cases taken c g s <;> (rw [rule] at ok; cases ok)
  exact ⟨hc, hg, rfl⟩

theorem inRule_ok {d : Dest} {s : State} {e : Effects} (ok : inRule d s = .ok e) :
    InMemory s.mem d.addr ∧ ∃ v, s.inSeq[s.inPtr]? = some v ∧ e = { Effects.store d v 2 with consume := true } := by
  obtain ⟨-, rule⟩ | ⟨-, -, rule⟩ | ⟨hd, v, next, rule⟩ := inRule_cases d s <;> (rw [rule] at ok; cases ok)
  exact ⟨hd, v, next, rfl⟩

theorem outRule_ok {a : Operand} {s : State} {e : Effects} (ok : outRule a s = .ok e) :
    Readable s.mem a ∧ e = { Effects.moveTo (.sequential 2) with output := some (valueOf s.mem a) } := by
  obtain ⟨_, -, rule⟩ | ⟨ha, rule⟩ := outRule_cases a s <;> (rw [rule] at ok; cases ok)
  exact ⟨ha, rfl⟩

theorem ruleOf_ok {i : Instr} {s : State} {e : Effects} (ok : ruleOf i s = .ok e) : Commits i s e := by
  cases i with
  | add | mul => exact aluRule_ok ok
  | lt => exact aluRule_ok (f := fun x y => .ok (lessThan x y)) ok
  | eq => exact aluRule_ok (f := fun x y => .ok (equals x y)) ok
  | inp => exact inRule_ok ok
  | out => exact outRule_ok ok
  | jt | jf => exact jumpRule_ok ok
  | hlt => exact (Except.ok.inj ok).symm

/-- The fault a step of `s` takes records the fields of its kind, and as its word, if any, the cell fetched at `IP`. -/
structure FaultFits (s : State) (tr : Trap) (word : Option Word) : Prop where
  fields : recordFieldsOk ⟨tr.kind, s.ip, tr.addr, word, tr.opcode⟩
  fetched : ∀ w ∈ word, InMemory s.mem s.ip ∧ w = s.mem.read s.ip.toNat

/-- A fault before the word was fetched. -/
theorem faultFits_of_no_word {s : State} {tr : Trap}
    (fault : tr = trapPlain .stepLimitExceeded ∨ tr = trapOutOfBounds s.ip ∨ tr = trapMalformed s.ip) :
    FaultFits s tr none := by
  refine ⟨?_, nofun⟩
  obtain rfl | rfl | rfl := fault <;> simp [recordFieldsOk, trapPlain, trapOutOfBounds, trapMalformed]

/-- A fault after the word was fetched is of any kind but the limit's. -/
theorem faultFits_of_word {s : State} {tr : Trap} {w : Word} (fetched : InMemory s.mem s.ip ∧ w = s.mem.read s.ip.toNat)
    (fault : (∃ e v, tr = trapOfDecode e ∧ (e = .invalidMode ∨ e = .invalidOpcode v)) ∨ (∃ a, tr = trapMalformed a) ∨
      (∃ a, tr = trapOutOfBounds a) ∨ tr = trapPlain .overflow ∨ tr = trapPlain .inputExhausted) :
    FaultFits s tr (some w) := by
  refine ⟨?_, fun x hx => Option.some.inj hx ▸ fetched⟩
  obtain ⟨_, _, rfl, rfl | rfl⟩ | ⟨_, rfl⟩ | ⟨_, rfl⟩ | rfl | rfl := fault <;>
    simp [recordFieldsOk, trapOfDecode, trapPlain, trapOutOfBounds, trapMalformed]

theorem fetchInstr_error_fits {s : State} {tr : Trap} {word : Option Word} (failed : fetchInstr s = .error (tr, word)) :
    FaultFits s tr word := by
  obtain ⟨_, noWord, answer⟩ | ⟨w, e, fetched, rejected, answer⟩ | ⟨w, _, _, fetched, -, params, answer⟩ |
      ⟨_, _, _, -, -, -, answer⟩ := fetchInstr_cases s <;> (rw [answer] at failed; cases failed)
  · exact faultFits_of_no_word (.inr (fetch_error noWord))
  · obtain ⟨inside, rfl⟩ := (fetch_ok_iff ..).mp fetched
    obtain rfl | ⟨v, rfl⟩ := decodeHead_error rejected
    · exact faultFits_of_word ⟨inside, rfl⟩ (.inl ⟨_, 0, rfl, .inl rfl⟩)
    · exact faultFits_of_word ⟨inside, rfl⟩ (.inl ⟨_, v, rfl, .inr rfl⟩)
  · obtain ⟨inside, rfl⟩ := (fetch_ok_iff ..).mp fetched
    obtain ⟨a, rfl | rfl⟩ := fetchParams_error params
    · exact faultFits_of_word ⟨inside, rfl⟩ (.inr (.inr (.inl ⟨a, rfl⟩)))
    · exact faultFits_of_word ⟨inside, rfl⟩ (.inr (.inl ⟨a, rfl⟩))

theorem ruleOf_error_fits {s : State} {i : Instr} {tr : Trap} (fetched : fetchInstr s = .ok i)
    (failed : ruleOf i s = .error tr) : FaultFits s tr (some i.word) :=
  faultFits_of_word (fetchInstr_word fetched) (.inr (.inr (ruleOf_error failed)))

/-- A step from a running state enters a fitting fault, or commits the fetched instruction below the limit. -/
theorem step_outcome {s t : State} (next : step s = .next t) :
    s.run = .running ∧
      ((∃ tr w, t = s.raise tr w ∧ FaultFits s tr w) ∨
        ∃ i e, UnderLimit s ∧ fetchInstr s = .ok i ∧ Commits i s e ∧ t = s.commit e) := by
  obtain ⟨running, ⟨-, rfl⟩ | ⟨-, tr, w, failed, rfl⟩ | ⟨under, i, fetched, executed⟩⟩ := step_next next
  · exact ⟨running, .inl ⟨_, _, rfl, faultFits_of_no_word (.inl rfl)⟩⟩
  · exact ⟨running, .inl ⟨tr, w, rfl, fetchInstr_error_fits failed⟩⟩
  · obtain ⟨e, ok, rfl⟩ | ⟨tr, failed, rfl⟩ := exec_next executed
    · exact ⟨running, .inr ⟨i, e, under, fetched, ruleOf_ok ok, rfl⟩⟩
    · exact ⟨running, .inl ⟨tr, _, rfl, ruleOf_error_fits fetched failed⟩⟩

/-- A step that ends in Faulted entered a fitting fault. -/
theorem step_faulted {s t : State} (next : step s = .next t) (faulted : t.run = .faulted) :
    ∃ tr w, t = s.raise tr w ∧ FaultFits s tr w := by
  obtain ⟨running, raised | ⟨_, e, -, -, -, rfl⟩⟩ := step_outcome next
  · exact raised
  · exact absurd faulted (commit_run_ne_faulted running e)

/-- A step that does not end in Faulted committed the fetched instruction. -/
theorem step_committed {s t : State} (next : step s = .next t) (completed : t.run ≠ .faulted) :
    ∃ i e, UnderLimit s ∧ fetchInstr s = .ok i ∧ Commits i s e ∧ t = s.commit e := by
  obtain ⟨-, ⟨_, _, rfl, -⟩ | committed⟩ := step_outcome next
  · exact absurd (raise_run ..) completed
  · exact committed

/-- Settles O26: the step raised its fault, and the record of the raise is `r`. -/
theorem faultEntryIsPrecise : Obligations.FaultEntryIsPrecise := by
  intro s t next faulted
  obtain ⟨tr, w, rfl, fits⟩ := step_faulted next faulted
  exact ⟨_, ⟨rfl, rfl⟩, fits.fields⟩

/-- Settles O27: the recorded word is the fetched one. -/
theorem faultRecordHoldsFetchedWord : Obligations.FaultRecordHoldsFetchedWord := by
  intro s t next faulted r recorded w word
  obtain ⟨tr, w', rfl, fits⟩ := step_faulted next faulted
  obtain rfl : _ = r := Option.some.inj recorded
  exact fits.fetched w word

/-- Settles O37: a fault entry keeps the counter and a commit adds one. -/
theorem stepsCountsCommits : Obligations.StepsCountsCommits := by
  refine fun s t next => ⟨fun faulted => ?_, fun completed => ?_⟩
  · obtain ⟨_, _, rfl, -⟩ := step_faulted next faulted
    rfl
  · obtain ⟨_, e, -, -, -, rfl⟩ := step_committed next completed
    exact commit_steps s e

/-- HLT is the one instruction that asks for Halted. -/
theorem Commits.eq_hlt {i : Instr} {s : State} {e : Effects} (commits : Commits i s e) (halts : e.halt = true) :
    i = .hlt := by
  cases i with
  | add | mul | lt | eq => obtain ⟨-, -, -, v, rfl⟩ := commits; cases halts
  | inp => obtain ⟨-, v, -, rfl⟩ := commits; cases halts
  | out => obtain ⟨-, rfl⟩ := commits; cases halts
  | jt | jf => obtain ⟨-, -, rfl⟩ := commits; cases halts
  | hlt => rfl

/-- Settles O34: the committed instruction asked for Halted, so it is HLT and the fetched word is its word. -/
theorem haltedOnlyByHalt : Obligations.HaltedOnlyByHalt := by
  intro s t next halted
  have running := (step_outcome next).1
  obtain ⟨i, e, -, fetched, commits, rfl⟩ := step_committed next (by rw [halted]; exact nofun)
  have halts : e.halt = true := by
    by_contra stays
    rw [commit_run, if_neg stays, running] at halted
    cases halted
  obtain rfl := commits.eq_hlt halts
  obtain rfl : e = _ := commits
  obtain ⟨inside, word⟩ := fetchInstr_word fetched
  exact ⟨inside, word.symm.trans (by decide), rfl⟩

/-- The zero test of the jumps, on the integer a cell stands for. -/
@[simp] theorem isZero_iff (w : Word) : isZero w = true ↔ w.toInt = 0 := by
  have zero : w.toInt = 0 ↔ w = 0 := by
    rw [← BitVec.toInt_inj]
    rfl
  rw [isZero, decide_eq_true_eq, zero]

@[simp] theorem not_isZero_iff (w : Word) : (!isZero w) = true ↔ w.toInt ≠ 0 := by
  rw [Bool.not_eq_true', ← Bool.not_eq_true, isZero_iff]

/-- The next `IP` of a jump. -/
theorem commit_jump_ip (s : State) (taken : Prop) [Decidable taken] (g : Word) :
    (s.commit (.moveTo (if taken then .target g else .sequential 3))).ip = if taken then g else s.ip + 3 := by
  split <;> rfl

/-- Settles O35: a fault keeps `IP`, and each instruction's effects select the entry of the table. -/
theorem nextIpTable : Obligations.NextIpTable := by
  refine fun s t i _ _ fetched next => ⟨fun faulted => ?_, fun completed => ?_⟩
  · obtain ⟨_, _, rfl, -⟩ := step_faulted next faulted
    rfl
  · obtain ⟨j, e, -, fetched', commits, rfl⟩ := step_committed next completed
    obtain rfl : j = i := Except.ok.inj (fetched'.symm.trans fetched)
    cases j with
    | add | mul | lt | eq => obtain ⟨-, -, -, v, rfl⟩ := commits; rfl
    | inp => obtain ⟨-, v, -, rfl⟩ := commits; rfl
    | out => obtain ⟨-, rfl⟩ := commits; rfl
    | jt c g =>
      obtain ⟨-, -, rfl⟩ := commits
      simp only [commit_jump_ip, not_isZero_iff]
    | jf c g =>
      obtain ⟨-, -, rfl⟩ := commits
      simp only [commit_jump_ip, isZero_iff]
    | hlt => obtain rfl : e = _ := commits; rfl

end Sys2Proof.Machine
end

section
namespace Sys2Proof.Machine

/-! The invariant of a run: every step keeps it, and it holds after a reset. -/

/-- A fault entry records the fault exactly once the block is in Faulted. -/
theorem raise_stateInv {s : State} (inv : StateInv s) {tr : Trap} {w : Option Word} (fits : FaultFits s tr w) :
    StateInv (s.raise tr w) where
  memWf := inv.memWf
  memLen := inv.memLen
  faultRecorded := by simp
  faultIp := by simp
  faultFields := by simpa using fits.fields
  inPtrInside := inv.inPtrInside
  diagIsLast := raise_diagIsLast inv.diagIsLast tr w
  withinLimit := inv.withinLimit

/-- A committed write is inside memory: the destination was checked. -/
theorem Commits.write_inMemory {i : Instr} {s : State} {e : Effects} (commits : Commits i s e) {a v : Word}
    (write : e.write = some (a, v)) : InMemory s.mem a := by
  cases i with
  | add | mul | lt | eq => obtain ⟨-, -, inside, _, rfl⟩ := commits; cases write; exact inside
  | inp => obtain ⟨inside, _, -, rfl⟩ := commits; cases write; exact inside
  | out => obtain ⟨-, rfl⟩ := commits; cases write
  | jt | jf => obtain ⟨-, -, rfl⟩ := commits; cases write
  | hlt => obtain rfl : e = _ := commits; cases write

/-- A consumed input was there. -/
theorem Commits.consume_inside {i : Instr} {s : State} {e : Effects} (commits : Commits i s e)
    (consumes : e.consume = true) : s.inPtr < s.inSeq.length := by
  cases i with
  | add | mul | lt | eq => obtain ⟨-, -, -, _, rfl⟩ := commits; cases consumes
  | inp => obtain ⟨-, _, next, -⟩ := commits; exact (List.getElem?_eq_some_iff.mp next).1
  | out => obtain ⟨-, rfl⟩ := commits; cases consumes
  | jt | jf => obtain ⟨-, -, rfl⟩ := commits; cases consumes
  | hlt => obtain rfl : e = _ := commits; cases consumes

theorem commit_mem_wf {i : Instr} {s : State} {e : Effects} (wf : s.mem.wf) (commits : Commits i s e) :
    (s.commit e).mem.wf := by
  rw [commit_mem]
  split
  · exact wf
  · rename_i a v write
    obtain ⟨lo, hi⟩ := commits.write_inMemory write
    have := toNat_of_nonneg lo
    exact write_wf wf (by omega) v

theorem commit_inPtr_inside {i : Instr} {s : State} {e : Effects} (inside : s.inPtr ≤ s.inSeq.length)
    (commits : Commits i s e) : (s.commit e).inPtr ≤ s.inSeq.length := by
  rw [commit_inPtr]
  split
  · rename_i consumes
    exact commits.consume_inside consumes
  · exact inside

/-- A commit records no fault, and it happens below the limit. -/
theorem commit_stateInv {i : Instr} {s : State} {e : Effects} (inv : StateInv s) (running : s.run = .running)
    (under : UnderLimit s) (commits : Commits i s e) : StateInv (s.commit e) := by
  have noFault : s.fault = none := by
    rw [← Option.not_isSome_iff_eq_none, ← inv.faultRecorded, running]
    exact nofun
  exact {
    memWf := commit_mem_wf inv.memWf commits
    memLen := by simpa using inv.memLen
    faultRecorded := by simp [noFault, commit_run_ne_faulted running e, -commit_run]
    faultIp := by simp [noFault]
    faultFields := by simp [noFault]
    inPtrInside := commit_inPtr_inside inv.inPtrInside commits
    diagIsLast := commit_diagIsLast inv.diagIsLast e
    withinLimit := fun l limit => under l limit }

/-- Settles O45: both outcomes of a step keep the invariant. -/
theorem stepKeepsInvariant : Obligations.StepKeepsInvariant := by
  intro s t inv next
  obtain ⟨running, ⟨_, _, rfl, fits⟩ | ⟨_, _, under, -, commits, rfl⟩⟩ := step_outcome next
  · exact raise_stateInv inv fits
  · exact commit_stateInv inv running under commits

/-- A reset over a canonical memory within the bound meets the invariant. -/
theorem reset_stateInv {p : Setup} (wf : p.mem.wf) (len : p.mem.len ≤ Config.memLenMax) : StateInv p.reset where
  memWf := wf
  memLen := len
  faultRecorded := by simp [reset_values]
  faultIp := by simp [reset_values]
  faultFields := by simp [reset_values]
  inPtrInside := Nat.zero_le _
  diagIsLast := rfl
  withinLimit := fun l _ => Nat.zero_le l

/-- Settles O44: the reset state is the reset of the empty setup, and a boot is the reset over a loaded image. -/
theorem resetMeetsInvariant : Obligations.ResetMeetsInvariant :=
  ⟨reset_stateInv (p := .empty) reset_mem_wf (Nat.zero_le _), fun image _ _ short => reset_stateInv (ofImage_wf image) short⟩

end Sys2Proof.Machine
end

section
namespace Sys2Proof.Machine

/-! The fetch of an instruction (R102 to R105): which cells it reads and where it fails. -/

theorem fetch_inside {m : Memory} {a : Word} (inside : InMemory m a) : fetch m a = .ok (m.read a.toNat) :=
  (fetch_ok_iff ..).mpr ⟨inside, rfl⟩

theorem fetch_negative {m : Memory} {a : Word} (negative : a.toInt < 0) : fetch m a = .error (trapOutOfBounds a) := by
  rw [fetch, if_pos negative]

theorem fetch_pastEnd {m : Memory} {a : Word} (past : (m.len : Int) ≤ a.toInt) :
    fetch m a = .error (trapMalformed a) := by
  rw [fetch, if_neg (by omega), if_pos past]

/-- A fault of the fetch or the decoder, with the record written out. -/
theorem step_of_fetchInstr_error {s : State} {tr : Trap} {w : Option Word} (running : s.run = .running)
    (under : UnderLimit s) (failed : fetchInstr s = .error (tr, w)) :
    step s = faultNext s tr.kind tr.addr w tr.opcode := by
  rw [step_of_fetchInstr running under, failed, ← next_raise_eq_faultNext]

/-- A fault of the word fetch records no word. -/
theorem step_of_fetch_error {s : State} {tr : Trap} (running : s.run = .running) (under : UnderLimit s)
    (failed : fetch s.mem s.ip = .error tr) : step s = faultNext s tr.kind tr.addr none tr.opcode :=
  step_of_fetchInstr_error running under (by simp only [fetchInstr, failed])

/-- Settles O10: the word fetch fails by the sign of `IP`. -/
theorem wordFetchOutsideMemoryFaults : Obligations.WordFetchOutsideMemoryFaults := fun _ running under =>
  ⟨fun negative => step_of_fetch_error running under (fetch_negative negative),
    fun past => step_of_fetch_error running under (fetch_pastEnd past)⟩

section head
variable {s : State} {h : Head} (short : s.mem.len ≤ Config.memLenMax) (inside : InMemory s.mem s.ip)
  (head : decodeHead (s.mem.read s.ip.toNat) = .ok h)
include short inside head

/-- With all parameters inside memory, the instruction is assembled from the cells after the word. -/
theorem fetchInstr_of_params_inside (fits : s.ip.toInt + h.op.params < s.mem.len) :
    fetchInstr s = .ok (h.assemble (cellsAt s.mem (s.ip.toNat + 1) h.op.params)) := by
  have next : (s.ip + 1).toInt = s.ip.toInt + 1 := toInt_add_small short inside (n := 1) (by omega)
  have pos := inside.1
  have here := toNat_of_nonneg pos
  have there := toNat_of_nonneg (w := s.ip + 1) (by omega)
  have addr : (s.ip + 1).toNat = s.ip.toNat + 1 := by omega
  have params := fetchParams_inside short h.op.params (s.ip + 1) (by omega) (by omega)
  simp only [fetchInstr, fetch_inside inside, head, params, addr]

/-- With a parameter past the end, the fetch fails at the first cell outside. -/
theorem fetchInstr_of_params_pastEnd (past : (s.mem.len : Int) ≤ s.ip.toInt + h.op.params) :
    fetchInstr s = .error (trapMalformed (Word.ofInt s.mem.len), some (s.mem.read s.ip.toNat)) := by
  have next : (s.ip + 1).toInt = s.ip.toInt + 1 := toInt_add_small short inside (n := 1) (by omega)
  obtain ⟨pos, below⟩ := inside
  have params := fetchParams_pastEnd short h.op.params (s.ip + 1) (by omega) (by omega) (by omega)
  simp only [fetchInstr, fetch_inside ⟨pos, below⟩, head, params]

end head

/-- Settles O12: the two cases of the parameter fetch. -/
theorem parameterFetch : Obligations.ParameterFetch := fun _ _ running under short inside head =>
  ⟨fetchInstr_of_params_inside short inside head,
    fun past => step_of_fetchInstr_error running under (fetchInstr_of_params_pastEnd short inside head past)⟩

@[simp] theorem length_cellsAt (m : Memory) (a n : Nat) : (cellsAt m a n).length = n := by simp [cellsAt]

/-- The instruction fetched is the one whose encoding stands in memory at `IP`. -/
theorem fetchInstr_ok_iff {s : State} (short : s.mem.len ≤ Config.memLenMax) (i : Instr) :
    fetchInstr s = .ok i ↔
      0 ≤ s.ip.toInt ∧ s.ip.toInt + (encode i).length ≤ s.mem.len ∧
        cellsAt s.mem s.ip.toNat (encode i).length = encode i := by
  constructor
  · intro fetched
    obtain ⟨inside, -⟩ := fetchInstr_word fetched
    obtain ⟨_, _, answer⟩ | ⟨_, _, _, _, answer⟩ | ⟨_, _, _, _, _, _, answer⟩ | ⟨w, h, _, word, head, -, -⟩ :=
        fetchInstr_cases s
    case inr.inr.inr =>
      obtain ⟨-, rfl⟩ := (fetch_ok_iff ..).mp word
      have fits : s.ip.toInt + h.op.params < s.mem.len := by
        by_contra past
        have failed := fetchInstr_of_params_pastEnd short inside head (not_lt.mp past)
        rw [fetched] at failed
        cases failed
      have assembled := fetchInstr_of_params_inside short inside head fits
      obtain rfl : i = _ := Except.ok.inj (fetched.symm.trans assembled)
      rw [encode_assemble head (length_cellsAt ..), List.length_cons, length_cellsAt, cellsAt_succ]
      exact ⟨inside.1, by push_cast; omega, rfl⟩
    all_goals rw [answer] at fetched; cases fetched
  · rintro ⟨pos, fits, cells⟩
    rw [encode_length, Opcode.length] at fits cells
    rw [cellsAt_succ, encode, List.cons.injEq] at cells
    obtain ⟨word, params⟩ := cells
    have head : decodeHead (s.mem.read s.ip.toNat) = .ok i.head := word ▸ decodeHead_word i
    have fetched := fetchInstr_of_params_inside short ⟨pos, by omega⟩ head (by omega)
    rw [fetched, params, assemble_paramCells]

/-- An instruction takes at most four cells. -/
theorem length_encode_le (i : Instr) : (encode i).length ≤ 4 := by
  rw [encode_length]
  cases i.head.op <;> decide

/-- Settles O36: the fetched encoding ends inside memory, which is too short for the sum to wrap. -/
theorem ipNeverWraps : Obligations.IpNeverWraps := by
  intro s i short fetched
  obtain ⟨-, fits, -⟩ := (fetchInstr_ok_iff short i).mp fetched
  exact ⟨toInt_add_small short (fetchInstr_word fetched).1 (length_encode_le i), fits⟩

theorem cellsAt_congr {m m' : Memory} {a n : Nat} (same : ∀ k < n, m'.read (a + k) = m.read (a + k)) :
    cellsAt m' a n = cellsAt m a n :=
  List.map_congr_left fun k hk => same k (List.mem_range.mp hk)

/-- Settles O41: both memories hold the encoding at `IP`. -/
theorem fetchDoesNotLookAhead : Obligations.FetchDoesNotLookAhead := by
  intro s i m short fetched len same
  obtain ⟨pos, fits, cells⟩ := (fetchInstr_ok_iff short i).mp fetched
  refine (fetchInstr_ok_iff (s := { s with mem := m }) (len ▸ short) i).mpr ⟨pos, len ▸ fits, ?_⟩
  rw [← cells, length_cellsAt]
  exact cellsAt_congr same

/-- The cells of a longer stretch begin with those of a shorter one. -/
theorem cellsAt_add (m : Memory) (a n k : Nat) : cellsAt m a (n + k) = cellsAt m a n ++ cellsAt m (a + n) k := by
  simp [cellsAt, List.range_add, Function.comp_def, Nat.add_assoc]

/-- Settles O6: the decoded cells begin with the encoding of the instruction, so it is the one fetched. -/
theorem stepRunsDecodedInstruction : Obligations.StepRunsDecodedInstruction := by
  intro s n i rest running under short pos fits decoded
  have cells := encodeOfDecodeIsSame _ _ _ decoded
  have length : (encode i).length + rest.length = n := by
    rw [← List.length_append, cells, length_cellsAt]
  rw [← length, cellsAt_add] at cells
  have own : encode i = cellsAt s.mem s.ip.toNat (encode i).length :=
    List.append_inj_left cells (length_cellsAt ..).symm
  have fetched := (fetchInstr_ok_iff short i).mpr ⟨pos, by omega, own.symm⟩
  exact ⟨(wordLegal_statement i).1, by rw [step_of_fetchInstr running under, fetched]⟩

end Sys2Proof.Machine
end

section
namespace Sys2Proof.Machine

/-! Memory accesses after a write (R52 to R54). -/

/-- Settles O38: a write keeps the bounds, and the cell read is the one written exactly at its address. -/
theorem writeIsSeenByNextAccess : Obligations.WriteIsSeenByNextAccess := by
  intro m m' a v written
  rw [memWrite_eq] at written
  split at written
  · rename_i inside
    cases written
    have stillInside : InMemory (m.write a.toNat v) a := inside
    refine ⟨?_, ?_, fun b other => ?_⟩
    · rw [fetch_inside stillInside, read_write_same]
    · rw [memRead_eq, if_pos stillInside, read_write_same]
    · have kept : (m.write a.toNat v).read b.toNat = m.read b.toNat :=
        read_write_other m v fun same => other (BitVec.eq_of_toNat_eq same)
      simp only [fetch, memRead, inBounds_write, write_len, kept, and_self]
  · cases written

end Sys2Proof.Machine
end

section
namespace Sys2Proof.Machine

/-! When there is a step (R100), and how a run ends (R190, R192). -/

/-- Settles O8: finishing a rule commits it or takes its fault. -/
theorem execAlwaysAnswersNext : Obligations.ExecAlwaysAnswersNext := by
  intro i s
  rw [exec_eq_finish]
  cases ruleOf i s with
  | ok e => exact ⟨_, finish_ok ..⟩
  | error tr => exact ⟨_, finish_error ..⟩

/-- A running block has a step. -/
theorem step_of_running {s : State} (running : s.run = .running) : ∃ t, step s = .next t := by
  by_cases under : UnderLimit s
  · rw [step_of_fetchInstr running under]
    cases fetchInstr s with
    | ok i => exact execAlwaysAnswersNext i s
    | error fault => exact ⟨_, rfl⟩
  · exact ⟨_, step_of_limitReached running under⟩

theorem step_of_halted {s : State} (halted : s.run = .halted) : step s = .fault .noStepHalted := by
  simp only [step, cycle, halted]

theorem step_of_faulted {s : State} (faulted : s.run = .faulted) : step s = .fault .noStepFaulted := by
  simp only [step, cycle, faulted]

/-- Settles O7: one lemma per value of `RUN`. -/
theorem stepEnabledExactlyWhileRunning : Obligations.StepEnabledExactlyWhileRunning := fun _ =>
  ⟨⟨step_of_running, fun ⟨_, next⟩ => (step_next next).1⟩, step_of_halted, step_of_faulted⟩

/-- A run stays where it has stopped. -/
theorem runFor_of_not_running {s : State} (stopped : s.run ≠ .running) (k : Nat) : runFor k s = s := by
  cases k with
  | zero => rfl
  | succ k =>
    obtain ⟨_, next, -⟩ | stays := runFor_succ_cases k s
    · exact absurd (step_next next).1 stopped
    · exact stays

/-- Settles O42: no step leaves a stopped state, and the reset gives the values of R37. -/
theorem stoppedUntilReset : Obligations.StoppedUntilReset := fun _ stopped =>
  ⟨runFor_of_not_running stopped, rfl, rfl, rfl, rfl, rfl⟩

/-- A step that leaves the block running counted one of the steps the limit allows. -/
theorem step_still_running {s t : State} (next : step s = .next t) (running : t.run = .running) :
    UnderLimit s ∧ t.steps = s.steps + 1 := by
  obtain ⟨_, e, under, -, -, rfl⟩ := step_committed next (by rw [running]; exact nofun)
  exact ⟨under, commit_steps s e⟩

/-- A run of more steps than the limit leaves has ended. -/
theorem runFor_ended {l : Nat} (k : Nat) {s : State} (limit : s.stepLimit = some l) (enough : l - s.steps < k) :
    (runFor k s).run ≠ .running := by
  induction k generalizing s with
  | zero => omega
  | succ k ih =>
    by_cases running : s.run = .running
    · obtain ⟨t, next⟩ := step_of_running running
      have run : runFor (k + 1) s = runFor k t := by simp only [runFor, next]
      rw [run]
      by_cases going : t.run = .running
      · obtain ⟨under, counted⟩ := step_still_running next going
        have left : s.steps < l := under l limit
        obtain ⟨-, -, sameLimit⟩ := step_sameParameters next
        exact ih (sameLimit.trans limit) (by omega)
      · rwa [runFor_of_not_running going]
    · rwa [runFor_of_not_running running]

/-- Settles O43: `ended` is that the run is not in Running. -/
theorem limitedRunEnds : Obligations.LimitedRunEnds := fun s l limit =>
  decide_eq_true (runFor_ended (l - s.steps + 1) limit (Nat.lt_succ_self _))

end Sys2Proof.Machine
end

section
namespace Sys2Proof.Machine

/-! The outputs of a run do not influence it (10_state.md, sections 6 and 8). -/

/-- `s` with other outputs. -/
def State.withOutputs (s : State) (o : List Word) (g : Option Word) : State := { s with outSeq := o, diag := g }

section outputs
variable (s : State) (o : List Word) (g : Option Word)

theorem fetchInstr_withOutputs : fetchInstr (s.withOutputs o g) = fetchInstr s := rfl

theorem ruleOf_withOutputs (i : Instr) : ruleOf i (s.withOutputs o g) = ruleOf i s := by cases i <;> rfl

/-- From `s` with other outputs a step does what it does from `s`: the same fault entry, or the same commit. -/
theorem step_withOutputs {t : State} (next : step s = .next t) :
    (∃ tr w, t = s.raise tr w ∧ step (s.withOutputs o g) = .next ((s.withOutputs o g).raise tr w)) ∨
      ∃ e, t = s.commit e ∧ step (s.withOutputs o g) = .next ((s.withOutputs o g).commit e) := by
  obtain ⟨running, ⟨reached, raised⟩ | ⟨under, tr, w, failed, raised⟩ | ⟨under, i, fetched, executed⟩⟩ := step_next next
  · exact .inl ⟨_, _, raised, step_of_limitReached (s := s.withOutputs o g) running reached⟩
  · have step' := step_of_fetchInstr (s := s.withOutputs o g) running under
    rw [fetchInstr_withOutputs, failed] at step'
    exact .inl ⟨tr, w, raised, step'⟩
  · have step' := step_of_fetchInstr (s := s.withOutputs o g) running under
    simp only [fetchInstr_withOutputs, fetched, exec_eq_finish, ruleOf_withOutputs] at step'
    obtain ⟨e, rule, committed⟩ | ⟨tr, rule, raised⟩ := exec_next executed
    · exact .inr ⟨e, committed, by rw [step', rule, finish_ok]⟩
    · exact .inl ⟨tr, _, raised, by rw [step', rule, finish_error]⟩

end outputs

/-- A commit appends its output, if any. -/
theorem commit_outSeq_eq_append (s : State) (e : Effects) : (s.commit e).outSeq = s.outSeq ++ e.output.toList := by
  rw [commit_outSeq]
  cases e.output <;> simp

/-- Settles O39: the two steps raise the same fault and append nothing, or commit the same effects. -/
theorem outputsAreInvisibleToProgram : Obligations.OutputsAreInvisibleToProgram := by
  intro s t o g next
  obtain ⟨tr, w, rfl, next'⟩ | ⟨e, rfl, next'⟩ := step_withOutputs s o g next
  · exact ⟨_, next', rfl, [], (List.append_nil _).symm, (List.append_nil _).symm⟩
  · exact ⟨_, next', rfl, e.output.toList, commit_outSeq_eq_append .., commit_outSeq_eq_append ..⟩

end Sys2Proof.Machine
end

section
namespace Sys2Proof.Machine

/-! What each instruction does when it completes (R131 to R170). -/

/-- An instruction whose rule raises no fault commits its effects. -/
theorem exec_of_ruleOf_ok {i : Instr} {s : State} {e : Effects} (ok : ruleOf i s = .ok e) :
    exec i s = .next (s.commit e) := by
  rw [exec_eq_finish, ok, finish_ok]

/-- A write at an address in memory leaves every other cell alone. -/
theorem write_sameCellsBut {m : Memory} {d : Word} (inside : InMemory m d) (v : Word) :
    SameCellsBut m (m.write d.toNat v) d := by
  refine ⟨rfl, fun a other => read_write_other m v fun same => other ?_⟩
  rw [same, toNat_of_nonneg inside.1]

/-- What a completed storing instruction leaves behind: `v` in its destination, four cells further, all else as before. -/
def StoresResult (d : Dest) (v : Word) (s t : State) : Prop :=
  t.mem.read d.addr.toNat = v ∧ SameCellsBut s.mem t.mem d.addr ∧ t.ip = s.ip + 4 ∧ t.steps = s.steps + 1 ∧
    SameInput s t ∧ SameOutput s t ∧ SameControl s t

theorem commit_store_storesResult {d : Dest} {s : State} (inside : InMemory s.mem d.addr) (v : Word) :
    StoresResult d v s (s.commit (.store d v 4)) :=
  ⟨read_write_same .., write_sameCellsBut inside v, rfl, rfl, ⟨rfl, rfl⟩, ⟨rfl, rfl⟩, ⟨rfl, rfl, rfl⟩⟩

section alu
variable {i : Instr} {f : Word → Word → Except Trap Word} {a b : Operand} {d : Dest} {s : State}
  (rule : ruleOf i s = aluRule f a b d s) (ha : Readable s.mem a) (hb : Readable s.mem b) (hd : InMemory s.mem d.addr)
include rule ha hb hd

/-- A storing ALU instruction with readable operands and a destination in memory stores its result. -/
theorem exec_alu_completes {v : Word} (result : f (valueOf s.mem a) (valueOf s.mem b) = .ok v) :
    ∃ t, exec i s = .next t ∧ StoresResult d v s t := by
  have ok : ruleOf i s = .ok (.store d v 4) := by
    simp only [rule, aluRule, resolve2_readable ha hb, destAddr, checkDest_inMemory hd, result]
  exact ⟨_, exec_of_ruleOf_ok ok, commit_store_storesResult hd v⟩

/-- The same with an exact result in the cell range. -/
theorem exec_alu_narrow_completes {r : Int} (inRange : InCellRange r)
    (result : f (valueOf s.mem a) (valueOf s.mem b) = narrow r) :
    ∃ t, exec i s = .next t ∧ StoresResult d (Word.ofInt r) s t :=
  exec_alu_completes rule ha hb hd (result.trans (by rw [narrow_eq, if_pos inRange]))

end alu

/-- Settles O13: the sum is in the cell range, so the cell stored is the exact sum. -/
theorem addWritesSum : Obligations.AddWritesSum := by
  intro a b d s ha hb hd inRange
  obtain ⟨t, next, read, rest⟩ := exec_alu_narrow_completes (i := .add a b d) rfl ha hb hd inRange rfl
  exact ⟨t, next, by rw [read, toInt_ofInt_of_inCellRange inRange], rest⟩

/-- Settles O14: the product is in the cell range, so the cell stored is the exact product. -/
theorem mulWritesProduct : Obligations.MulWritesProduct := by
  intro a b d s ha hb hd inRange
  obtain ⟨t, next, read, rest⟩ := exec_alu_narrow_completes (i := .mul a b d) rfl ha hb hd inRange rfl
  exact ⟨t, next, by rw [read, toInt_ofInt_of_inCellRange inRange], rest⟩

theorem toInt_lessThan (x y : Word) : (lessThan x y).toInt = if x.toInt < y.toInt then 1 else 0 := by
  unfold lessThan
  split <;> rfl

theorem toInt_equals (x y : Word) : (equals x y).toInt = if x.toInt = y.toInt then 1 else 0 := by
  simp only [equals, BitVec.toInt_inj]
  split <;> rfl

/-- Settles O15: the cell stored is `lessThan` of the operands. -/
theorem ltWritesComparison : Obligations.LtWritesComparison := by
  intro a b d s ha hb hd
  obtain ⟨t, next, read, rest⟩ :=
    exec_alu_completes (i := .lt a b d) (f := fun x y => .ok (lessThan x y)) rfl ha hb hd rfl
  exact ⟨t, next, by rw [read, toInt_lessThan], rest⟩

/-- Settles O16: the cell stored is `equals` of the operands. -/
theorem eqWritesComparison : Obligations.EqWritesComparison := by
  intro a b d s ha hb hd
  obtain ⟨t, next, read, rest⟩ :=
    exec_alu_completes (i := .eq a b d) (f := fun x y => .ok (equals x y)) rfl ha hb hd rfl
  exact ⟨t, next, by rw [read, toInt_equals], rest⟩

/-- Settles O17: past both checks of its rule, IN stores the value at the index and consumes it. -/
theorem inWritesNextInput : Obligations.InWritesNextInput := by
  intro d s v hd input
  have ok : ruleOf (.inp d) s = .ok { Effects.store d v 2 with consume := true } := by
    simp only [ruleOf, inRule, destAddr, checkDest_inMemory hd, nextInput, input]
  exact ⟨_, exec_of_ruleOf_ok ok, read_write_same .., write_sameCellsBut hd v, rfl, rfl, rfl, rfl, ⟨rfl, rfl⟩,
    rfl, rfl, rfl⟩

/-- Settles O18: OUT commits its operand as output. -/
theorem outRecordsOperand : Obligations.OutRecordsOperand := fun _ _ ha =>
  ⟨_, exec_out_readable ha, rfl, rfl, rfl, rfl, rfl, ⟨rfl, rfl⟩, rfl, rfl, rfl⟩

/-- A jump with readable operands commits the selected `IP` and nothing else. -/
theorem exec_jump_completes {i : Instr} {taken : Word → Bool} {c g : Operand} {s : State}
    (rule : ruleOf i s = jumpRule taken c g s) (hc : Readable s.mem c) (hg : Readable s.mem g) :
    ∃ t, exec i s = .next t ∧ t.ip = (if taken (valueOf s.mem c) then valueOf s.mem g else s.ip + 3) ∧
      t.mem = s.mem ∧ t.steps = s.steps + 1 ∧ SameInput s t ∧ SameOutput s t ∧ SameControl s t := by
  have ok : ruleOf i s =
      .ok (.moveTo (if taken (valueOf s.mem c) then .target (valueOf s.mem g) else .sequential 3)) := by
    simp only [rule, jumpRule, resolve2_readable hc hg]
  exact ⟨_, exec_of_ruleOf_ok ok, commit_jump_ip .., rfl, rfl, ⟨rfl, rfl⟩, ⟨rfl, rfl⟩, rfl, rfl, rfl⟩

/-- Settles O19: JT is taken when the zero test fails. -/
theorem jtSelectsNextIp : Obligations.JtSelectsNextIp := by
  intro c g s hc hg
  simpa only [not_isZero_iff] using exec_jump_completes (i := .jt c g) rfl hc hg

/-- Settles O20: JF is taken when the zero test passes. -/
theorem jfSelectsNextIp : Obligations.JfSelectsNextIp := by
  intro c g s hc hg
  simpa only [isZero_iff] using exec_jump_completes (i := .jf c g) rfl hc hg

/-- Settles O21: HLT's rule only asks for Halted and holds `IP`. -/
theorem hltHalts : Obligations.HltHalts := fun _ => exec_of_ruleOf_ok (i := .hlt) rfl

end Sys2Proof.Machine
end

section
namespace Sys2Proof.Machine

/-! Where an instruction faults before its data are looked at (R182, R189). -/

/-- A rule that raises OutOfBounds takes it with the address and the instruction's word. -/
theorem exec_outOfBounds {i : Instr} {s : State} {p : Word} (failed : ruleOf i s = .error (trapOutOfBounds p)) :
    exec i s = faultNext s .outOfBounds (some p) (some i.word) none := exec_of_ruleOf_error failed

theorem resolve2_first_outside {m : Memory} {p : Word} (outside : ¬ InMemory m p) (b : Operand) :
    resolve2 m (.positional p) b = .error (trapOutOfBounds p) := by
  simp only [resolve2, resolve_unreadable outside]

theorem resolve2_second_outside {m : Memory} {a : Operand} {p : Word} (ha : Readable m a) (outside : ¬ InMemory m p) :
    resolve2 m a (.positional p) = .error (trapOutOfBounds p) := by
  simp only [resolve2, resolve_readable ha, resolve_unreadable outside]

/-- Every instruction with two operands faults where their reading does. -/
theorem ruleOf_of_resolve2_error {a b : Operand} {s : State} {tr : Trap} (failed : resolve2 s.mem a b = .error tr)
    (d : Dest) : ∀ i ∈ [Instr.add a b d, .mul a b d, .lt a b d, .eq a b d, .jt a b, .jf a b],
      ruleOf i s = .error tr := by
  simp [ruleOf, aluRule, jumpRule, failed]

/-- Settles O22: the read of the operands fails at `p`, whether it is the first of them or the second. -/
theorem operandOutsideMemoryFaults : Obligations.OperandOutsideMemoryFaults := by
  refine fun p a b d s outside => ⟨fun i hi => exec_outOfBounds ?_, fun ha i hi => exec_outOfBounds ?_⟩
  · have two := ruleOf_of_resolve2_error (resolve2_first_outside outside b) d
    have one : ruleOf (.out (.positional p)) s = .error (trapOutOfBounds p) := by
      simp only [ruleOf, outRule, resolve_unreadable outside]
    simp only [List.forall_mem_cons] at two
    obtain ⟨add, mul, lt, eq, jt, jf, -⟩ := two
    revert i
    simp only [List.forall_mem_cons]
    exact ⟨add, mul, lt, eq, one, jt, jf, nofun⟩
  · exact ruleOf_of_resolve2_error (resolve2_second_outside ha outside) d i hi

/-- Settles O23: the destination check comes right after the operands. -/
theorem destinationOutsideMemoryFaults : Obligations.DestinationOutsideMemoryFaults := by
  refine fun a b d s outside => ⟨exec_outOfBounds ?_, fun ha hb i hi => exec_outOfBounds ?_⟩
  · simp only [ruleOf, inRule, destAddr, checkDest_outside outside]
  · revert i
    simp [ruleOf, aluRule, resolve2_readable ha hb, destAddr, checkDest_outside outside]

end Sys2Proof.Machine
end

section
namespace Sys2Proof.Machine

/-! The frames: what each instruction leaves unchanged, completed or faulted (R108, R181). -/

theorem SameCells.sameCellsBut {m m' : Memory} (same : SameCells m m') (d : Word) : SameCellsBut m m' d :=
  ⟨same.1, fun a _ => same.2 a⟩

section raise
variable (s : State) (tr : Trap) (w : Option Word)

theorem raise_sameCells : SameCells s.mem (s.raise tr w).mem := ⟨rfl, fun _ => rfl⟩
theorem raise_sameInput : SameInput s (s.raise tr w) := ⟨rfl, rfl⟩
theorem raise_sameOutput : SameOutput s (s.raise tr w) := ⟨rfl, rfl⟩
theorem raise_completedOrFaulted : CompletedOrFaulted s (s.raise tr w) := ⟨rfl, .inr ⟨rfl, rfl, rfl, rfl⟩⟩

end raise

/-- Execution commits effects of the instruction's form, or enters a fault. -/
theorem exec_outcome {i : Instr} {s t : State} (next : exec i s = .next t) :
    (∃ e, Commits i s e ∧ t = s.commit e) ∨ ∃ tr w, t = s.raise tr w := by
  obtain ⟨e, ok, rfl⟩ | ⟨tr, -, rfl⟩ := exec_next next
  · exact .inl ⟨e, ruleOf_ok ok, rfl⟩
  · exact .inr ⟨tr, _, rfl⟩

/-- Settles O28: a store of the result, or a fault. -/
theorem aluFrame : Obligations.AluFrame := by
  intro a b d s t i hi next
  obtain ⟨e, commits, rfl⟩ | ⟨tr, w, rfl⟩ := exec_outcome next
  · have stores : InMemory s.mem d.addr ∧ ∃ v, e = .store d v 4 := by
      simp only [List.mem_cons, List.not_mem_nil, or_false] at hi
      obtain rfl | rfl | rfl | rfl := hi <;> (obtain ⟨-, -, stores⟩ := commits; exact stores)
    obtain ⟨inside, v, rfl⟩ := stores
    exact ⟨write_sameCellsBut inside v, ⟨rfl, rfl⟩, ⟨rfl, rfl⟩, rfl, .inl ⟨rfl, rfl, rfl⟩⟩
  · exact ⟨(raise_sameCells ..).sameCellsBut _, raise_sameInput .., raise_sameOutput .., raise_completedOrFaulted ..⟩

/-- Settles O29: a store of the input with the index moved, or a fault with neither. -/
theorem inFrame : Obligations.InFrame := by
  intro d s t next
  obtain ⟨e, ⟨inside, v, -, rfl⟩, rfl⟩ | ⟨tr, w, rfl⟩ := exec_outcome next
  · exact ⟨write_sameCellsBut inside v, rfl, ⟨rfl, rfl⟩, ⟨rfl, .inl ⟨rfl, rfl, rfl⟩⟩, Nat.succ_add_eq_add_succ ..⟩
  · exact ⟨(raise_sameCells ..).sameCellsBut _, rfl, raise_sameOutput .., raise_completedOrFaulted .., rfl⟩

/-- Settles O30: an output with no write, or a fault. -/
theorem outFrame : Obligations.OutFrame := by
  intro a s t next
  obtain ⟨e, ⟨-, rfl⟩, rfl⟩ | ⟨tr, w, rfl⟩ := exec_outcome next
  · exact ⟨⟨rfl, fun _ => rfl⟩, ⟨rfl, rfl⟩, ⟨rfl, .inl ⟨rfl, rfl, rfl⟩⟩, fun same => absurd same (Nat.succ_ne_self _)⟩
  · exact ⟨raise_sameCells .., raise_sameInput .., raise_completedOrFaulted .., fun _ => raise_sameOutput ..⟩

/-- Settles O31: a move of `IP`, or a fault. -/
theorem jumpFrame : Obligations.JumpFrame := by
  intro c g s t i hi next
  obtain ⟨e, commits, rfl⟩ | ⟨tr, w, rfl⟩ := exec_outcome next
  · have moves : ∃ n, e = .moveTo n := by
      simp only [List.mem_cons, List.not_mem_nil, or_false] at hi
      obtain rfl | rfl := hi <;> (obtain ⟨-, -, moves⟩ := commits; exact ⟨_, moves⟩)
    obtain ⟨n, rfl⟩ := moves
    exact ⟨⟨rfl, fun _ => rfl⟩, ⟨rfl, rfl⟩, ⟨rfl, rfl⟩, rfl, .inl ⟨rfl, rfl, rfl⟩⟩
  · exact ⟨raise_sameCells .., raise_sameInput .., raise_sameOutput .., raise_completedOrFaulted ..⟩

/-- Settles O32: the one next state of HLT is that of O21. -/
theorem hltFrame : Obligations.HltFrame := by
  intro s t next
  obtain rfl := Host.Outcome.next.inj ((hltHalts s).symm.trans next)
  exact ⟨⟨rfl, fun _ => rfl⟩, ⟨rfl, rfl⟩, ⟨rfl, rfl⟩, rfl, rfl, rfl⟩

end Sys2Proof.Machine
end

section
namespace Sys2Proof.Machine

/-! The pseudo-instructions (R84). -/

section forms
variable {args : List (Bool × Word)} {i : Instr}

theorem asmForm0_some {j : Instr} (h : asmForm0 j args = some i) : i = j := by
  unfold asmForm0 at h
  split at h <;> cases h
  rfl

theorem asmFormO_some {f : Operand → Instr} (h : asmFormO f args = some i) : ∃ a, i = f a := by
  unfold asmFormO at h
  split at h <;> cases h
  exact ⟨_, rfl⟩

theorem asmFormD_some {f : Dest → Instr} (h : asmFormD f args = some i) : ∃ d, i = f d := by
  unfold asmFormD at h
  split at h
  · obtain ⟨d, -, rfl⟩ := Option.map_eq_some_iff.mp h
    exact ⟨d, rfl⟩
  · cases h

theorem asmFormOO_some {f : Operand → Operand → Instr} (h : asmFormOO f args = some i) : ∃ a t, i = f a t := by
  unfold asmFormOO at h
  split at h <;> cases h
  exact ⟨_, _, rfl⟩

theorem asmFormOD_some {f : Operand → Dest → Instr} (h : asmFormOD f args = some i) : ∃ a d, i = f a d := by
  unfold asmFormOD at h
  split at h
  · obtain ⟨d, -, rfl⟩ := Option.map_eq_some_iff.mp h
    exact ⟨_, d, rfl⟩
  · cases h

theorem asmFormOOD_some {f : Operand → Operand → Dest → Instr} (h : asmFormOOD f args = some i) :
    ∃ a b d, i = f a b d := by
  unfold asmFormOOD at h
  split at h
  · obtain ⟨d, -, rfl⟩ := Option.map_eq_some_iff.mp h
    exact ⟨_, _, d, rfl⟩
  · cases h

/-- What a mnemonic assembles to takes the mnemonic's cells, whatever its operands are. -/
theorem length_encode_asmInstr {m : Mnemonic} (h : asmInstr m args = some i) : (encode i).length = m.cells := by
  cases m with
  | add | mul | lt | eq => obtain ⟨a, b, d, rfl⟩ := asmFormOOD_some h; rfl
  | inp | clr => obtain ⟨d, rfl⟩ := asmFormD_some h; rfl
  | out | jmp => obtain ⟨a, rfl⟩ := asmFormO_some h; rfl
  | jt | jf => obtain ⟨c, t, rfl⟩ := asmFormOO_some h; rfl
  | mov => obtain ⟨a, d, rfl⟩ := asmFormOD_some (f := fun a d => .add a (.immediate 0) d) h; rfl
  | hlt | nop => obtain rfl := asmForm0_some h; rfl

end forms

/-- MOV adds 0 to its operand, which never leaves the cell range. -/
theorem exec_mov {o : Operand} {d : Dest} {s : State} (readable : Readable s.mem o) (inside : InMemory s.mem d.addr) :
    ∃ t, exec (.add o (.immediate 0) d) s = .next t ∧ t.run = s.run ∧ t.steps = s.steps + 1 ∧
      t.mem.read d.addr.toNat = valueOf s.mem o := by
  have sum : (valueOf s.mem o).toInt + (valueOf s.mem (.immediate 0)).toInt = (valueOf s.mem o).toInt := add_zero _
  obtain ⟨t, next, read, -, -, steps, -, -, run, -, -⟩ :=
    addWritesSum o (.immediate 0) d s readable trivial inside (by rw [sum]; exact cell_toInt_range _)
  exact ⟨t, next, run, steps, BitVec.eq_of_toInt_eq (read.trans sum)⟩

/-- NOP is a jump that is not taken. -/
theorem exec_nop (s : State) :
    exec (.jf (.immediate 1) (.immediate 0)) s = .next { s with ip := s.ip + 3, steps := s.steps + 1 } :=
  exec_of_ruleOf_ok (e := .moveTo (.sequential 3)) rfl

/-- Settles O52: the expansions by the definition of the assembler, MOV and NOP by executing theirs. -/
theorem pseudoInstructions : Obligations.PseudoInstructions := by
  refine ⟨⟨rfl, rfl, rfl, rfl⟩, fun m args i => length_encode_asmInstr, fun a t d => ⟨rfl, rfl, rfl⟩, rfl,
    fun a d s readable inside => ?_, fun s => ⟨_, rfl, rfl, exec_nop s⟩⟩
  obtain ⟨t, copied⟩ := exec_mov (d := asmDest d) readable inside
  exact ⟨_, t, rfl, copied⟩

end Sys2Proof.Machine
end

section
namespace Sys2Proof.Machine

/-! The host interface (R224) and the numbers of the status interface (R33, R180). -/

theorem apply_load {image : List Word} (short : image.length ≤ Config.memLenMax) (p : Setup) :
    (HostOp.load image).apply p = some { p with mem := .ofImage image } := if_pos short

theorem apply_load_tooLong {image : List Word} (long : Config.memLenMax < image.length) (p : Setup) :
    (HostOp.load image).apply p = none := if_neg (not_le.mpr long)

theorem apply_poke_inside {p : Setup} {a : Word} (inside : InMemory p.mem a) (v : Word) :
    (HostOp.poke a v).apply p = some { p with mem := p.mem.write a.toNat v } := by
  simp only [HostOp.apply, memWrite_eq, if_pos inside]

theorem apply_poke_outside {p : Setup} {a : Word} (outside : ¬ InMemory p.mem a) (v : Word) :
    (HostOp.poke a v).apply p = none := by
  simp only [HostOp.apply, memWrite_eq, if_neg outside]

section hostAct
variable {op : HostOp}

/-- Before the first reset an operation acts on what the host has set. -/
theorem hostAct_beforeReset {p : Setup} {r : Option Setup} (answer : op.apply p = r) (sets : op ≠ .reset) :
    hostAct op (.beforeReset p) = r.map .beforeReset := by
  subst answer
  cases op with
  | reset => exact absurd rfl sets
  | load | poke | setInput | setStepLimit => rfl

/-- While Running the host has no operation but the reset. -/
theorem hostAct_running {s : State} (running : s.run = .running) (sets : op ≠ .reset) :
    hostAct op (.started s) = none := by
  cases op with
  | reset => exact absurd rfl sets
  | load | poke | setInput | setStepLimit => exact if_pos running

/-- Of a stopped block an operation changes what the host has set. -/
theorem hostAct_stopped {s : State} {r : Option Setup} (stopped : s.run ≠ .running) (answer : op.apply s.setup = r)
    (sets : op ≠ .reset) : hostAct op (.started s) = r.map fun p => .started (s.withSetup p) := by
  subst answer
  cases op with
  | reset => exact absurd rfl sets
  | load | poke | setInput | setStepLimit => exact if_neg stopped

/-- What the host cannot set is allowed on no block. -/
theorem hostAct_eq_none (refused : ∀ p, op.apply p = none) (sets : op ≠ .reset) (b : Block) : hostAct op b = none := by
  cases b with
  | beforeReset p => exact hostAct_beforeReset (refused p) sets
  | started s =>
    by_cases running : s.run = .running
    · exact hostAct_running running sets
    · exact hostAct_stopped running (refused _) sets

end hostAct

theorem observe_running {s : State} (running : s.run = .running) : observe s = none := if_pos running

theorem observe_stopped {s : State} (stopped : s.run ≠ .running) :
    observe s = some ⟨s.run, s.fault, s.ip, s.mem, s.diag, s.outSeq, s.inPtr, s.steps⟩ := if_neg stopped

/-- Settles O47: before the first reset, while Running and while stopped, an operation is its effect on what the host has
set. -/
theorem hostActsOnlyWhileStopped : Obligations.HostActsOnlyWhileStopped := by
  refine ⟨fun p => ?beforeReset, fun image b long => ?tooLong, fun s => ⟨rfl, rfl, fun running => ?running,
    fun stopped => ?stopped⟩⟩
  case beforeReset =>
    exact ⟨rfl, fun _ short => hostAct_beforeReset (apply_load short p) nofun,
      fun _ v inside => hostAct_beforeReset (apply_poke_inside inside v) nofun,
      fun _ v outside => hostAct_beforeReset (apply_poke_outside outside v) nofun, fun _ => rfl, fun _ => rfl⟩
  case tooLong => exact hostAct_eq_none (apply_load_tooLong long) nofun b
  case running => exact ⟨observe_running running, fun _ => hostAct_running running⟩
  case stopped =>
    exact ⟨observe_stopped stopped, fun _ short => hostAct_stopped stopped (apply_load short _) nofun,
      fun _ v inside => hostAct_stopped stopped (apply_poke_inside (p := s.setup) inside v) nofun,
      fun _ v outside => hostAct_stopped stopped (apply_poke_outside (p := s.setup) outside v) nofun,
      fun seq => hostAct_stopped (op := .setInput seq) stopped rfl nofun,
      fun l => hostAct_stopped (op := .setStepLimit l) stopped rfl nofun⟩

/-- Settles O49: each code is the one its definition gives. -/
theorem statusCodes : Obligations.StatusCodes := ⟨rfl, rfl, rfl, rfl, rfl, rfl, rfl, rfl, rfl, rfl⟩

end Sys2Proof.Machine
end

section
namespace Sys2Proof.Machine

/-! The parameter search (R229, R230): its answer is decided by the first pair that does not halt with another value. -/

section search
variable (target : Word) (run : Nat → Nat → Trial)

/-- The pair's trial halts with another value than the target. -/
def Misses (noun verb : Nat) : Prop := ∃ d, run noun verb = .halted d ∧ d ≠ some target

/-- Every pair before this one misses. -/
def MissesBefore (noun verb : Nat) : Prop :=
  ∀ n v, n ≤ 99 → v ≤ 99 → searchAnswer n v < searchAnswer noun verb → Misses target run n v

/-- The whole scan: every pair misses, or one decides after only misses. -/
theorem searchList_searchPairs_cases :
    (searchList target run searchPairs = .notFound ∧ ∀ n v, n ≤ 99 → v ≤ 99 → Misses target run n v) ∨
    ∃ noun verb, noun ≤ 99 ∧ verb ≤ 99 ∧ MissesBefore target run noun verb ∧
      ((run noun verb = .halted (some target) ∧ searchList target run searchPairs = .found noun verb) ∨
       (∃ r, run noun verb = .faulted r ∧ searchList target run searchPairs = .aborted r) ∨
       (run noun verb = .unfinished ∧ searchList target run searchPairs = .unfinished noun verb) ∨
       (run noun verb = .notInjected ∧ searchList target run searchPairs = .notInjected)) := by
  obtain ⟨answer, miss⟩ | ⟨pre, noun, verb, post, split, miss, decided⟩ := searchList_cases target run searchPairs
  · exact .inl ⟨answer, fun n v hn hv => miss (n, v) ((mem_searchPairs n v).mpr ⟨hn, hv⟩)⟩
  · have scanned : (noun, verb) ∈ searchPairs := split ▸ List.mem_append_right _ List.mem_cons_self
    obtain ⟨hn, hv⟩ := (mem_searchPairs noun verb).mp scanned
    exact .inr ⟨noun, verb, hn, hv, fun n v hn' hv' lt => miss (n, v) (searchPairs_before split hn' hv' lt), decided⟩

variable {target run}

/-- After misses only, the scan comes to the pair. -/
theorem searchList_reaches {noun verb : Nat} (hn : noun ≤ 99) (hv : verb ≤ 99) (miss : MissesBefore target run noun verb) :
    ∃ post, searchList target run searchPairs = searchList target run ((noun, verb) :: post) := by
  obtain ⟨pre, post, split, before⟩ := searchPairs_split hn hv
  refine ⟨post, split ▸ searchList_append (fun q hq => ?_) _⟩
  obtain ⟨hn', hv', lt⟩ := before q.1 q.2 hq
  exact miss q.1 q.2 hn' hv' lt

theorem searchList_found_iff (noun verb : Nat) : searchList target run searchPairs = .found noun verb ↔
    noun ≤ 99 ∧ verb ≤ 99 ∧ run noun verb = .halted (some target) ∧ MissesBefore target run noun verb := by
  constructor
  · intro found
    obtain ⟨answer, -⟩ | ⟨n, v, hn, hv, miss, ⟨halted, answer⟩ | ⟨_, -, answer⟩ | ⟨-, answer⟩ | ⟨-, answer⟩⟩ :=
        searchList_searchPairs_cases target run <;> (rw [answer] at found; cases found)
    exact ⟨hn, hv, halted, miss⟩
  · rintro ⟨hn, hv, halted, miss⟩
    obtain ⟨post, reached⟩ := searchList_reaches hn hv miss
    simp only [reached, searchList, halted, if_true]

theorem searchList_aborted_iff (r : FaultRecord) : searchList target run searchPairs = .aborted r ↔
    ∃ noun verb, noun ≤ 99 ∧ verb ≤ 99 ∧ run noun verb = .faulted r ∧ MissesBefore target run noun verb := by
  constructor
  · intro aborted
    obtain ⟨answer, -⟩ | ⟨n, v, hn, hv, miss, ⟨-, answer⟩ | ⟨_, faulted, answer⟩ | ⟨-, answer⟩ | ⟨-, answer⟩⟩ :=
        searchList_searchPairs_cases target run <;> (rw [answer] at aborted; cases aborted)
    exact ⟨n, v, hn, hv, faulted, miss⟩
  · rintro ⟨noun, verb, hn, hv, faulted, miss⟩
    obtain ⟨post, reached⟩ := searchList_reaches hn hv miss
    simp only [reached, searchList, faulted]

theorem searchList_notFound_iff : searchList target run searchPairs = .notFound ↔
    ∀ n v, n ≤ 99 → v ≤ 99 → Misses target run n v := by
  constructor
  · intro notFound
    obtain ⟨-, miss⟩ | ⟨n, v, -, -, -, ⟨-, answer⟩ | ⟨_, -, answer⟩ | ⟨-, answer⟩ | ⟨-, answer⟩⟩ :=
        searchList_searchPairs_cases target run
    · exact miss
    all_goals rw [answer] at notFound; cases notFound
  · intro miss
    have scan := searchList_append (fun q hq => ?_) [] (target := target) (run := run) (pre := searchPairs)
    · rwa [List.append_nil] at scan
    · obtain ⟨hn, hv⟩ := (mem_searchPairs q.1 q.2).mp hq
      exact miss q.1 q.2 hn hv

end search

/-- Settles O50: the search is the scan of the trials over all pairs. -/
theorem searchFindsFirstMatch : Obligations.SearchFindsFirstMatch := fun _ _ _ =>
  ⟨searchList_found_iff, searchList_notFound_iff⟩

/-- Settles O51: the search is the scan of the trials over all pairs. -/
theorem searchAbortsAtFirstFault : Obligations.SearchAbortsAtFirstFault := fun _ _ _ => searchList_aborted_iff

end Sys2Proof.Machine
end
